-- ==== Sys2Proof/Word.lean ====
section
/-! DEFINITION. The word types of the block: a 16-bit command or response word (R8, R70, R150) and a 4-bit code (R7). -/

namespace Sys2Proof

/-- A 16-bit command word or a 16-bit response data word; bit 15 is the most significant bit (R8, R9, R70). -/
abbrev Word := BitVec 16

/-- A 4-bit pattern: a BCDCode, a digit entry of DBUF or the LFSR register; bit 3 is the source's b3 (R9). -/
abbrev Nibble := BitVec 4

end Sys2Proof
end

