-- ==== Sys2Proof/Config.lean ====
section
/-! DEFINITION. The parameters of the block (R7, R8) and the free values of the model: constants with no body, of which no proof can see a value. -/

namespace Sys2Proof.Config

/-- NSTEP, the Steps of one Run (R7); not configurable. -/
def nstep : Nat := 15

/-- The capacity of the digit buffer. MAXD is OPEN with 1 ≤ MAXD ≤ 4368 (R8, D12): a capacity `c` stands for
MAXD = `c + 1`, so the 4368 values of this type are exactly the values R8 allows. -/
abbrev Capacity := Fin 4368

/-- MAXD of a capacity (R8). -/
def maxd (c : Capacity) : Nat := c.val + 1

/-- DESIGN CHOICE (log entry 2): the capacity that `State.reset` carries, MAXD = 16 as in the vectors of 95_test_vectors.md.
R8 leaves MAXD open; no statement rests on this value. -/
def resetCapacity : Capacity := 15

/-- Free value (log entry 5): what a DBUF entry that nothing has written holds (R25, R182: unspecified). -/
opaque unwrittenDigit : Nat → Nibble

/-- Free value (log entry 5): what an AGG entry that nothing has written holds (R25, R182: unspecified). -/
opaque unwrittenBit : Nat → Bool

/-- Free value (log entry 6): what the ROM gives for 10 to 15, for which R100 has no entry. Only GO in a state that no run
reaches (one that breaks R31 (g)) could look there. -/
opaque romNoEntry : Nibble → Nibble

end Sys2Proof.Config
end

