-- ==== Sys2Proof/Syntax.lean ====
section
/-! DEFINITION. The syntax of the block's commands, one constructor per row of the opcode table (R72), and of the assembler's lines
and tokens (R77, R78). -/

namespace Sys2Proof

/-- The registers that RDREG names, N = 0 to 7 in this order (R151). -/
inductive Reg where
  | status | lfsr | seg | len | dcnt | rp | romq | eword
  deriving DecidableEq, Repr

/-- The eleven mnemonics of the opcode table (R72). -/
inductive Mnemonic where
  | nop | enc | seed | init | step | run | begin | push | go | rdbit | rdreg
  deriving DecidableEq, Repr

/-- A legal command (R72, R73). Every operand holds exactly the values that its field of the word can hold (R70, R74), so
every term of this type has one word. -/
inductive Instr where
  /-- NOP: do nothing (R152). -/
  | nop
  /-- ENC d: look up one BCD code (R102). -/
  | enc (d : Nibble)
  /-- SEED d: seed the engine from one digit (R103). -/
  | seed (d : Nibble)
  /-- INIT s, z: seed the engine with an explicit seed and StartZero (R113). -/
  | init (seed : Nibble) (szb : Bool)
  /-- STEP: one LFSR step (R114). -/
  | step
  /-- RUN: 15 Steps (R115). -/
  | run
  /-- BEGIN: open an invocation (R130). -/
  | begin
  /-- PUSH 'c': validate and store one character (R131). -/
  | push (ch : BitVec 8)
  /-- GO: the aggregator loop (R133). -/
  | go
  /-- RDBIT: hand over the next bit of the result (R134). -/
  | rdbit
  /-- RDREG n: read one register (R151). -/
  | rdreg (n : Reg)
  deriving DecidableEq, Repr

/-- The mnemonic of a command. -/
def Instr.mnemonic : Instr → Mnemonic
  | .nop => .nop
  | .enc _ => .enc
  | .seed _ => .seed
  | .init _ _ => .init
  | .step => .step
  | .run => .run
  | .begin => .begin
  | .push _ => .push
  | .go => .go
  | .rdbit => .rdbit
  | .rdreg _ => .rdreg

/-- The assembler's forms of INIT's seed (R77): a number, or four bits written MSB first (`0bxxxx` or the source's list). -/
inductive AsmSeed where
  | num (n : Nat)
  | bits (x0 x1 x2 x3 : Bool)
  deriving DecidableEq, Repr

/-- The assembler's forms of PUSH's operand (R77): a quoted character or a byte value. -/
inductive AsmChar where
  | quoted (c : Char)
  | byte (n : Nat)
  deriving DecidableEq, Repr

/-- The assembler's forms of RDREG's operand (R77): a number or a name. -/
inductive AsmReg where
  | num (n : Nat)
  | name (r : Reg)
  deriving DecidableEq, Repr

/-- One line of assembler source (R77) or one pseudo-command (R78), its operands as written and not yet checked. -/
inductive AsmLine where
  | nop
  | enc (d : Nat)
  | seed (d : Nat)
  | init (s : AsmSeed) (z : Nat)
  | step
  | run
  | begin
  | push (c : AsmChar)
  | go
  | rdbit
  | rdreg (n : AsmReg)
  /-- `ENCODE "c1c2…cn"` (R78). -/
  | encode (cs : List Char)
  /-- `READALL` (R78), with the LEN that its own RDREG LEN reads. -/
  | readall (len : Nat)
  /-- `SEEDRUN d` (R78). -/
  | seedrun (d : Nat)
  deriving DecidableEq, Repr

/-- What a line of assembler text is made of (R77). -/
inductive AsmToken where
  /-- A mnemonic, a name or a number. -/
  | word (cs : List Char)
  /-- A quoted character. -/
  | quoted (c : Char)
  /-- The quoted string of ENCODE (R78). -/
  | text (cs : List Char)
  | comma
  | openList
  | closeList
  deriving DecidableEq, Repr

end Sys2Proof
end

