-- ==== Sys2Proof/WellFormed.lean ====
section
/-! DEFINITION. The checks on the assembler's operands (R77) and the expansion of a checked line into commands (R78). A term of
`Instr` needs no check of its own: the type of each operand holds exactly the values its field can hold (R70, R74). -/

namespace Sys2Proof

/-- R77: a number 0..15, or four bits. -/
def AsmSeed.wellFormed : AsmSeed → Bool
  | .num n => decide (n ≤ 15)
  | .bits _ _ _ _ => true

/-- R77: a quoted character has an ASCII code (D10), a byte value is 0x00..0xFF. -/
def AsmChar.wellFormed : AsmChar → Bool
  | .quoted c => decide (c.toNat ≤ 127)
  | .byte n => decide (n ≤ 255)

/-- R77: a register number is 0..7. -/
def AsmReg.wellFormed : AsmReg → Bool
  | .num n => decide (n ≤ 7)
  | .name _ => true

/-- Every operand of the line is in the range R77 gives it. -/
def AsmLine.wellFormed : AsmLine → Bool
  | .nop => true
  | .enc d => decide (d ≤ 15)
  | .seed d => decide (d ≤ 15)
  | .init s z => s.wellFormed && decide (z ≤ 1)
  | .step => true
  | .run => true
  | .begin => true
  | .push c => c.wellFormed
  | .go => true
  | .rdbit => true
  | .rdreg n => n.wellFormed
  | .encode cs => cs.all fun c => (AsmChar.quoted c).wellFormed
  | .readall len => decide (len ≤ 65535)
  | .seedrun d => decide (d ≤ 15)

end Sys2Proof
end

