-- ==== Sys2Proof/Decode.lean ====
section
/-! DEFINITION. The command encoding: the opcode table of R73, the decoder, the encoder, and the assembler's expansion (R77, R78). -/

namespace Sys2Proof

/-- One row of the table of R73. -/
structure Row where
  mnemonic : Mnemonic
  pattern : Word
  mask : Word
  deriving DecidableEq, Repr

/-- The row of a mnemonic: its match and its mask (R73). -/
def rowOf : Mnemonic → Row
  | .nop => ⟨.nop, 0x0000#16, 0xFFFF#16⟩
  | .enc => ⟨.enc, 0x1000#16, 0xFFF0#16⟩
  | .seed => ⟨.seed, 0x2000#16, 0xFFF0#16⟩
  | .init => ⟨.init, 0x3000#16, 0xFFE0#16⟩
  | .step => ⟨.step, 0x4000#16, 0xFFFF#16⟩
  | .run => ⟨.run, 0x5000#16, 0xFFFF#16⟩
  | .begin => ⟨.begin, 0x6000#16, 0xFFFF#16⟩
  | .push => ⟨.push, 0x7000#16, 0xFF00#16⟩
  | .go => ⟨.go, 0x8000#16, 0xFFFF#16⟩
  | .rdbit => ⟨.rdbit, 0x9000#16, 0xFFFF#16⟩
  | .rdreg => ⟨.rdreg, 0xA000#16, 0xFFF8#16⟩

/-- The opcode table, in the order of R73. -/
def opcodeTable : List Row :=
  [.nop, .enc, .seed, .init, .step, .run, .begin, .push, .go, .rdbit, .rdreg].map rowOf

/-- `(w & mask) == match` (R73). -/
def Row.matches (r : Row) (w : Word) : Bool := w &&& r.mask == r.pattern

/-- The register number N of a register (R151). -/
def Reg.number : Reg → BitVec 3
  | .status => 0
  | .lfsr => 1
  | .seg => 2
  | .len => 3
  | .dcnt => 4
  | .rp => 5
  | .romq => 6
  | .eword => 7

/-- The register that N names; every N names one (R151). -/
def Reg.ofNumber (n : BitVec 3) : Reg :=
  match n.toNat with
  | 0 => .status
  | 1 => .lfsr
  | 2 => .seg
  | 3 => .len
  | 4 => .dcnt
  | 5 => .rp
  | 6 => .romq
  | _ => .eword

/-- The command that a word of the mnemonic's row stands for: its operand fields as R70 lays them out, each taken as it
stands (R71). -/
def readOperands (m : Mnemonic) (w : Word) : Instr :=
  match m with
  | .nop => .nop
  | .enc => .enc (w.extractLsb' 0 4)
  | .seed => .seed (w.extractLsb' 0 4)
  | .init => .init (w.extractLsb' 0 4) (w.getLsbD 4)
  | .step => .step
  | .run => .run
  | .begin => .begin
  | .push => .push (w.extractLsb' 0 8)
  | .go => .go
  | .rdbit => .rdbit
  | .rdreg => .rdreg (Reg.ofNumber (w.extractLsb' 0 3))

/-- The decoder (R73): total on every word; `none` is an illegal word, which the machine rejects with ILL (R163). -/
def decode (w : Word) : Option Instr :=
  (opcodeTable.find? fun r => r.matches w).map fun r => readOperands r.mnemonic w

/-- The operand field OPD of a command, as R70 lays it out; reserved bits are 0. -/
def operandBits : Instr → Word
  | .nop => 0
  | .enc d => d.setWidth 16
  | .seed d => d.setWidth 16
  | .init seed szb => (BitVec.ofBool szb ++ seed).setWidth 16
  | .step => 0
  | .run => 0
  | .begin => 0
  | .push ch => ch.setWidth 16
  | .go => 0
  | .rdbit => 0
  | .rdreg n => n.number.setWidth 16

/-- The encoder (R70, R73, R77): the row's match with the operand field in it. -/
def encode (i : Instr) : Word := (rowOf i.mnemonic).pattern ||| operandBits i

/-- R73's "legal": exactly one row matches. -/
def legal (w : Word) : Bool := (opcodeTable.filter fun r => r.matches w).length == 1

/-- The instruction the decoder reads from a table row's word. Every command is one 16-bit word (R76), so a longer one is
none of the block's. -/
def decodeTableWord (nbits w : Nat) : Option Instr :=
  if nbits ≤ 16 then decode (BitVec.ofNat 16 (w % 2 ^ nbits)) else none

/-- The seed that an assembler operand stands for (R71, R77): `x0` is the MSB. -/
def AsmSeed.value : AsmSeed → Nibble
  | .num n => BitVec.ofNat 4 n
  | .bits x0 x1 x2 x3 => BitVec.ofBool x0 ++ BitVec.ofBool x1 ++ BitVec.ofBool x2 ++ BitVec.ofBool x3

/-- The character code that an assembler operand stands for (R77, D10). -/
def AsmChar.value : AsmChar → BitVec 8
  | .quoted c => BitVec.ofNat 8 c.toNat
  | .byte n => BitVec.ofNat 8 n

/-- The register that an assembler operand names (R77). -/
def AsmReg.value : AsmReg → Reg
  | .num n => Reg.ofNumber (BitVec.ofNat 3 n)
  | .name r => r

/-- The commands that a line stands for: itself, or the expansion of a pseudo-command in order (R78). -/
def AsmLine.expand : AsmLine → List Instr
  | .nop => [.nop]
  | .enc d => [.enc (BitVec.ofNat 4 d)]
  | .seed d => [.seed (BitVec.ofNat 4 d)]
  | .init s z => [.init s.value (z == 1)]
  | .step => [.step]
  | .run => [.run]
  | .begin => [.begin]
  | .push c => [.push c.value]
  | .go => [.go]
  | .rdbit => [.rdbit]
  | .rdreg n => [.rdreg n.value]
  | .encode cs => .begin :: (cs.map fun c => .push (AsmChar.quoted c).value) ++ [.go]
  | .readall len => .rdreg .len :: List.replicate len .rdbit
  | .seedrun d => [.seed (BitVec.ofNat 4 d), .run]

/-- The words a line assembles to; a line whose operands are out of range assembles to nothing (R77, R78). -/
def AsmLine.assemble (a : AsmLine) : Option (List Word) :=
  if a.wellFormed then some (a.expand.map Sys2Proof.encode) else none

end Sys2Proof
end

