-- ==== Sys2Proof/Machine/State.lean ====
section
/-! DEFINITION. The state of the block: every element of R21 to R28, what stands at its ports (R185), and the state after reset (R180). -/

namespace Sys2Proof.Machine

/-- The sequencer state SEQ (R23). -/
inductive SeqState where
  /-- 0: no invocation since reset. -/
  | idle
  /-- 1: an invocation is open. -/
  | loading
  /-- 2: GO completed. -/
  | done
  /-- 3: the invocation failed. -/
  | failed
  deriving DecidableEq, Repr

/-- The LFSR engine (R21), with the hidden run counter (R28). -/
structure Engine where
  /-- R, the LFSR register; bit 3 is b3, the MSB. -/
  r : Nibble
  /-- SC, the StepCounter, modulo 256. -/
  sc : BitVec 8
  /-- SZ, StartZero of the last initialization. -/
  sz : Bool
  /-- OB, the output bit of the most recent Step. -/
  ob : Bool
  /-- SEG, the last OutputSequence; its first bit is bit 14. -/
  seg : BitVec 15
  /-- RUNCNT (hidden, 0..15): the Steps done in the present Run. -/
  runcnt : BitVec 4
  deriving DecidableEq, Repr

/-- The sequencer and its two buffers (R23, R24, R25, R50), with the hidden digit index (R28). -/
structure Sequencer where
  /-- SEQ; the same storage as STATUS[1:0] (R26). -/
  seq : SeqState
  /-- DCNT, the number of digits in DBUF. -/
  dcnt : Word
  /-- LEN, the number of valid bits in AGG. -/
  len : Word
  /-- RP, the read pointer into AGG. -/
  rp : Word
  /-- The digit index of GO's loop (hidden). -/
  digitIdx : Word
  /-- DBUF: the entries something has written, indices strictly rising. -/
  dbuf : List (Nat × Nibble)
  /-- AGG: the entries something has written, indices strictly rising. -/
  agg : List (Nat × Bool)
  deriving DecidableEq, Repr

/-- The error record: the six sticky flags and ECODE of STATUS (R26), and EWORD (R27). -/
structure ErrorRecord where
  /-- STATUS[2]. -/
  inv : Bool
  /-- STATUS[3]. -/
  ovf : Bool
  /-- STATUS[4]. -/
  ill : Bool
  /-- STATUS[5]. -/
  badarg : Bool
  /-- STATUS[6]. -/
  seqerr : Bool
  /-- STATUS[7]. -/
  eor : Bool
  /-- STATUS[11:8]. -/
  ecode : BitVec 4
  /-- EWORD, the word of the most recent rejected command. -/
  eword : Word
  deriving DecidableEq, Repr

/-- One response: rsp_ok and rsp_data (R150). -/
structure Response where
  ok : Bool
  data : Word
  deriving DecidableEq, Repr

/-- What the host does to the block between two commands (R190): it issues a command, or it resets the block. -/
inductive HostInput where
  | command (w : Word)
  | reset
  deriving DecidableEq, Repr

/-- What stands between the block and its host (R185). -/
structure HostPort where
  /-- The model's own (log entry 1): what the host will do, next first; the host's sequence of commands is the program (R29). -/
  inputs : List HostInput
  /-- The command word taken at acceptance and not yet answered; BUSY (R28) is 1 when there is one (log entry 4). -/
  inFlight : Option Word
  /-- The response presented at rsp_ok and rsp_data; rsp_valid is 1 when there is one (log entry 3). -/
  rsp : Option Response
  deriving DecidableEq, Repr

/-- The whole machine. -/
structure State where
  engine : Engine
  /-- ROMQ, the last code read from the ROM (R22). -/
  romq : Nibble
  sequencer : Sequencer
  errors : ErrorRecord
  host : HostPort
  /-- MAXD, minus one: a parameter of the block (R8, R20), carried beside the state and written by nothing (log entry 2). -/
  capacity : Config.Capacity
  deriving DecidableEq, Repr

/-- Why a step stops. Both reasons stand for an access to a buffer entry that does not exist (R50); no state that a run
reaches from reset makes one (R31 (a), (b)). -/
inductive Fault where
  /-- PUSH or GO, in a state with DCNT > MAXD: a DBUF index that is not 0..MAXD-1. Safe: no run reaches such a state. -/
  | dbufIndex
  /-- RDBIT, in a state with RP > 15·MAXD: an AGG index that is not 0..15·MAXD. Safe: no run reaches such a state. -/
  | aggIndex
  deriving DecidableEq, Repr

/-- Why a step has no meaning. -/
inductive Refusal where
  /-- An instruction whose meaning is not written yet, by its mnemonic. Safe; raised by nothing in this model. -/
  | notModelled (mnemonic : String)
  deriving DecidableEq, Repr

/-- MAXD of this block (R8). -/
def State.maxd (s : State) : Nat := Config.maxd s.capacity

/-- BUSY (R28): a command has been accepted and its response not yet presented (R185). -/
def State.busy (s : State) : Bool := s.host.inFlight.isSome

/-- The reset values of a block of the given capacity, with the host's further inputs given (R180, R21 to R27). No buffer entry
is listed: their contents are unspecified (R182). -/
def State.resetWith (c : Config.Capacity) (inputs : List HostInput) : State where
  engine := { r := 0, sc := 0, sz := false, ob := false, seg := 0, runcnt := 0 }
  romq := 0
  sequencer := { seq := .idle, dcnt := 0, len := 0, rp := 0, digitIdx := 0, dbuf := [], agg := [] }
  errors :=
    { inv := false, ovf := false, ill := false, badarg := false, seqerr := false, eor := false, ecode := 0, eword := 0 }
  host := { inputs := inputs, inFlight := none, rsp := none }
  capacity := c

/-- The machine right after reset (R180, R181), with no host input waiting. -/
def State.reset : State := State.resetWith Config.resetCapacity []

end Sys2Proof.Machine
end

