-- ==== Sys2Proof/Machine/Flags.lean ====
section
/-! DEFINITION. The flags: StartZero (R101), the error flags and codes (R161), and the STATUS word (R26). -/

namespace Sys2Proof.Machine

/-- `StartZero(c) = (c[3] = 0)` (R101). -/
def startZero (c : Nibble) : Bool := !c.getLsbD 3

/-- The six errors (R161). -/
inductive ErrorKind where
  | invalidDigit | ovf | ill | badarg | seqerr | eor
  deriving DecidableEq, Repr

/-- ECODE of an error (R161). -/
def errorCode : ErrorKind → BitVec 4
  | .invalidDigit => 1
  | .ovf => 2
  | .ill => 3
  | .badarg => 4
  | .seqerr => 5
  | .eor => 6

/-- Whether an error is fatal to the invocation (R161). -/
def errorFatal : ErrorKind → Bool
  | .invalidDigit => true
  | .ovf => true
  | .ill => false
  | .badarg => false
  | .seqerr => false
  | .eor => false

/-- Set the sticky flag of an error (R161, R162); no flag is cleared. -/
def setErrorFlag (e : ErrorKind) (x : ErrorRecord) : ErrorRecord :=
  match e with
  | .invalidDigit => { x with inv := true }
  | .ovf => { x with ovf := true }
  | .ill => { x with ill := true }
  | .badarg => { x with badarg := true }
  | .seqerr => { x with seqerr := true }
  | .eor => { x with eor := true }

/-- The error record that R162 leaves: the flag, ECODE and EWORD. -/
def recordError (e : ErrorKind) (w : Word) (x : ErrorRecord) : ErrorRecord :=
  { setErrorFlag e x with ecode := errorCode e, eword := w }

/-- The error record with nothing in it, as BEGIN leaves it (R130). -/
def clearedErrors : ErrorRecord :=
  { inv := false, ovf := false, ill := false, badarg := false, seqerr := false, eor := false, ecode := 0, eword := 0 }

/-- The 2-bit code of SEQ (R23). -/
def seqCode : SeqState → BitVec 2
  | .idle => 0
  | .loading => 1
  | .done => 2
  | .failed => 3

/-- STATUS (R26): [15:12] = 0, [11:8] = ECODE, [7:2] = EOR, SEQERR, BADARG, ILL, OVF, INV, [1:0] = SEQ. -/
def statusWord (x : ErrorRecord) (q : SeqState) : Word :=
  0#4 ++ x.ecode ++ BitVec.ofBool x.eor ++ BitVec.ofBool x.seqerr ++ BitVec.ofBool x.badarg ++ BitVec.ofBool x.ill ++
    BitVec.ofBool x.ovf ++ BitVec.ofBool x.inv ++ seqCode q

end Sys2Proof.Machine
end

