-- ==== Sys2Proof/Machine/Operands.lean ====
section
/-! DEFINITION. The operand forms: a digit value (R102, R103), an input character (R132) and a register number (R151). -/

namespace Sys2Proof.Machine

/-- A digit operand D that the ROM has an entry for: not 10 to 15 (R74, R164). -/
def isDigitValue (d : Nibble) : Bool := decide (d.toNat < 10)

/-- `isDigitChar(ch)`: 0x30 ≤ ch ≤ 0x39 (R132). -/
def isDigitChar (ch : BitVec 8) : Bool := decide (0x30 ≤ ch.toNat) && decide (ch.toNat ≤ 0x39)

/-- `digit(ch) = ch - 0x30` (R132). -/
def digitOfChar (ch : BitVec 8) : Nibble := (ch - 0x30#8).setWidth 4

/-- LFSRV: [15:8] = SC, [7:6] = 0, [5] = OB, [4] = SZ, [3:0] = R (R151, N = 1). -/
def lfsrView (e : Engine) : Word := e.sc ++ 0#2 ++ BitVec.ofBool e.ob ++ BitVec.ofBool e.sz ++ e.r

/-- VIEW(N): the 16 bits that RDREG answers for each register (R151). -/
def registerView (n : Reg) (s : State) : Word :=
  match n with
  | .status => statusWord s.errors s.sequencer.seq
  | .lfsr => lfsrView s.engine
  | .seg => s.engine.seg.setWidth 16
  | .len => s.sequencer.len
  | .dcnt => s.sequencer.dcnt
  | .rp => s.sequencer.rp
  | .romq => s.romq.setWidth 16
  | .eword => s.errors.eword

/-- `zext_16` of one bit (R114, R134). -/
def bitWord (b : Bool) : Word := (BitVec.ofBool b).setWidth 16

end Sys2Proof.Machine
end

