-- ==== Sys2Proof/Machine/Ops.lean ====
section
/-! DEFINITION. The shared operations: the storage arrays (R50 to R54), answering a command (R150), rejecting one (R162), and
what happens at the host port (R180, R185). -/

namespace Sys2Proof.Machine

/-- The entry of a storage array at an index, if something has written it. -/
def cellRead {α : Type} : List (Nat × α) → Nat → Option α
  | [], _ => none
  | (k, v) :: m, i => if k = i then some v else cellRead m i

/-- Write one entry of a storage array, keeping the indices rising. -/
def cellWrite {α : Type} : List (Nat × α) → Nat → α → List (Nat × α)
  | [], i, x => [(i, x)]
  | (k, v) :: m, i, x =>
    if i < k then (i, x) :: (k, v) :: m
    else if k = i then (i, x) :: m
    else (k, v) :: cellWrite m i x

/-- The canonical form of a storage array: indices strictly rising. An entry that is not listed reads as no value, so no listed
entry can equal it. -/
abbrev cellsRising {α : Type} (m : List (Nat × α)) : Prop := m.Pairwise fun a b => a.1 < b.1

/-- Every listed entry exists: its index is below the array's size (R50). -/
abbrev cellsBelow {α : Type} (n : Nat) (m : List (Nat × α)) : Prop := ∀ c ∈ m, c.1 < n

/-- The canonical form of the block's memory: both arrays rising, and no entry outside its array (R50). -/
abbrev Memory.wf (s : State) : Prop :=
  cellsRising s.sequencer.dbuf ∧ cellsRising s.sequencer.agg ∧ cellsBelow s.maxd s.sequencer.dbuf ∧
    cellsBelow (1 + 15 * s.maxd) s.sequencer.agg

/-- `MemRead(DBUF, k, 4)`; an entry nothing has written holds a free value (R25, R182). -/
def dbufRead (q : Sequencer) (k : Nat) : Nibble := (cellRead q.dbuf k).getD (Config.unwrittenDigit k)

/-- `MemWrite(DBUF, k, 4, d)` (R13). -/
def dbufWrite (q : Sequencer) (k : Nat) (d : Nibble) : Sequencer := { q with dbuf := cellWrite q.dbuf k d }

/-- `MemRead(AGG, i, 1)`; an entry nothing has written holds a free value (R25, R182). -/
def aggRead (q : Sequencer) (i : Nat) : Bool := (cellRead q.agg i).getD (Config.unwrittenBit i)

/-- `MemWrite(AGG, i, 1, b)` (R13). -/
def aggWrite (q : Sequencer) (i : Nat) (b : Bool) : Sequencer := { q with agg := cellWrite q.agg i b }

/-- The BCD table (R100); for 10 to 15, where it has no entry, a free value. -/
def rom (d : Nibble) : Nibble :=
  match d.toNat with
  | 0 => 0b0000
  | 1 => 0b0001
  | 2 => 0b0010
  | 3 => 0b0011
  | 4 => 0b0100
  | 5 => 0b0101
  | 6 => 0b0110
  | 7 => 0b0111
  | 8 => 0b1000
  | 9 => 0b1001
  | _ => Config.romNoEntry d

/-- Present a response and stop being BUSY (R150, R185). -/
def answer (a : Response) (s : State) : State := { s with host := { s.host with inFlight := none, rsp := some a } }

/-- `respond(d)`: the command ends successfully with response data `d` (R13, R150). -/
def respond (d : Word) (s : State) : State := answer { ok := true, data := d } s

/-- `raise E(w)`: the error outcome, the block's only exception (R160, R162; log entry 12). There is no return from it (R171); BEGIN
clears the record. -/
def raiseError (e : ErrorKind) (w : Word) (s : State) : State :=
  answer { ok := false, data := 0 }
    { s with
      errors := recordError e w s.errors
      sequencer := { s.sequencer with seq := if errorFatal e then .failed else s.sequencer.seq } }

/-- The effect of a reset (R180): every element at its reset value, a command in progress abandoned, no response. The buffers'
contents are unspecified again (R182); the host and the capacity are not the block's to reset. -/
def applyReset (s : State) : State := State.resetWith s.capacity s.host.inputs

/-- Acceptance of a command word (R185): the block takes the word and is BUSY; no response is presented. -/
def accept (w : Word) (s : State) : State := { s with host := { s.host with inFlight := some w, rsp := none } }

/-- Nothing completes: rsp_valid is 1 only when a command completes (R185); nothing else changes. -/
def presentNothing (s : State) : State := { s with host := { s.host with rsp := none } }

/-- The host's next input is taken off its list. -/
def dropInput (s : State) : State := { s with host := { s.host with inputs := s.host.inputs.tail } }

/-- What a step finds to do: nothing more (the state it leaves is given), or a command word to perform in a state. -/
inductive Fetched where
  | settled (t : State)
  | command (w : Word) (t : State)
  deriving DecidableEq, Repr

/-- Find what to do next: end the command in progress, else take the host's next input, else wait (R181, R185). -/
def fetch (s : State) : Fetched :=
  match s.host.inFlight with
  | some w => .command w s
  | none =>
    match s.host.inputs with
    | [] => .settled (presentNothing s)
    | .reset :: _ => .settled (applyReset (dropInput s))
    | .command w :: _ => .command w (accept w (dropInput s))

/-- A word placed so that `fetch` finds it next. -/
def placeWord (w : Word) (s : State) : State :=
  { s with host := { s.host with inputs := .command w :: s.host.inputs, inFlight := none } }

end Sys2Proof.Machine
end

