-- ==== Sys2Proof/Machine/Engine.lean ====
section
/-! DEFINITION. The LFSR engine family: Initialize, Step and Run (R110 to R112), and INIT, STEP and RUN (R113 to R115). -/

namespace Sys2Proof.Machine

/-- `Initialize(seed, sz)` (R110). -/
def initEngine (seed : Nibble) (sz : Bool) (e : Engine) : Engine :=
  { e with r := seed, sz := sz, sc := if sz then 0x00 else 0x01 }

/-- `StepF` (R111): the output is R[0]; R[0] xor R[1] enters at R[3] (the taps as R10 and C1 read them); the rest moves one place
toward the LSB. -/
def stepF (r : Nibble) : Nibble × Bool :=
  (BitVec.ofBool (r.getLsbD 0 ^^ r.getLsbD 1) ++ r.extractLsb' 1 3, r.getLsbD 0)

/-- `Step` (R111). -/
def engineStep (e : Engine) : Engine :=
  { e with r := (stepF e.r).1, ob := (stepF e.r).2, sc := e.sc + 1 }

/-- One Step of a Run, counted by RUNCNT (R28, R112). -/
def runTick (e : Engine) : Engine := { engineStep e with runcnt := e.runcnt + 1 }

/-- Step until RUNCNT is 15, collecting the outputs in call order (R112). RUNCNT alone ends it; the fuel only bounds the recursion. -/
def runLoop : Nat → Engine → List Bool → List Bool × Engine
  | 0, e, out => (out, e)
  | fuel + 1, e, out =>
    if e.runcnt.toNat = Config.nstep then (out, e)
    else runLoop fuel (runTick e) (out ++ [(runTick e).ob])

/-- The 15 output bits packed with the first in bit 14 and the last in bit 0 (R112). -/
def packSeg (out : List Bool) : BitVec 15 :=
  out.foldl (fun v b => v <<< 1 ||| (BitVec.ofBool b).setWidth 15) 0

/-- `Run15` (R112). RUNCNT is cleared again when the Run is over (log entry 10). -/
def run15 (e : Engine) : Engine :=
  let p := runLoop (Config.nstep + 1) { e with runcnt := 0 } []
  { p.2 with seg := packSeg p.1, runcnt := 0 }

/-- INIT s, z (R113). -/
def execInit (seed : Nibble) (szb : Bool) (s : State) : Host.Outcome State Fault Refusal :=
  let e := initEngine seed szb s.engine
  .next (respond (lfsrView e) { s with engine := e })

/-- STEP (R114). -/
def execStep (s : State) : Host.Outcome State Fault Refusal :=
  let e := engineStep s.engine
  .next (respond (bitWord e.ob) { s with engine := e })

/-- RUN (R115). -/
def execRun (s : State) : Host.Outcome State Fault Refusal :=
  let e := run15 s.engine
  .next (respond (e.seg.setWidth 16) { s with engine := e })

end Sys2Proof.Machine
end

