-- ==== Sys2Proof/Machine/Bcd.lean ====
section
/-! DEFINITION. The BCD encoder family: ENC (R102) and SEED (R103). -/

namespace Sys2Proof.Machine

/-- ENC d (R102). -/
def execEnc (d : Nibble) (s : State) : Host.Outcome State Fault Refusal :=
  if isDigitValue d then .next (respond ((rom d).setWidth 16) { s with romq := rom d })
  else .next (raiseError .badarg (encode (.enc d)) s)

/-- Read the ROM for a digit and initialize the engine with its code and StartZero (R103, R133). -/
def seedDigit (d : Nibble) (s : State) : State :=
  { s with romq := rom d, engine := initEngine (rom d) (startZero (rom d)) s.engine }

/-- SEED d (R103). -/
def execSeed (d : Nibble) (s : State) : Host.Outcome State Fault Refusal :=
  if isDigitValue d then .next (respond (lfsrView (seedDigit d s).engine) (seedDigit d s))
  else .next (raiseError .badarg (encode (.seed d)) s)

end Sys2Proof.Machine
end

