-- ==== Sys2Proof/Machine/Aggregator.lean ====
section
/-! DEFINITION. The aggregator and sequencer family: BEGIN (R130), PUSH (R131), GO (R133) and RDBIT (R134). -/

namespace Sys2Proof.Machine

/-- The sequencer that BEGIN leaves: an open invocation with its sentinel bit (R130). -/
def openInvocation (q : Sequencer) : Sequencer :=
  aggWrite { q with seq := .loading, dcnt := 0, len := 1, rp := 0 } 0 false

/-- BEGIN (R130). -/
def execBegin (s : State) : Host.Outcome State Fault Refusal :=
  .next (respond 0x0000 { s with sequencer := openInvocation s.sequencer, errors := clearedErrors })

/-- Store a digit at DCNT and count it (R131). -/
def storeDigit (d : Nibble) (q : Sequencer) : Sequencer :=
  { dbufWrite q q.dcnt.toNat d with dcnt := q.dcnt + 1 }

/-- PUSH 'c' (R131), its errors in the order of R169. -/
def execPush (ch : BitVec 8) (s : State) : Host.Outcome State Fault Refusal :=
  if s.sequencer.seq ≠ .loading then .next (raiseError .seqerr (encode (.push ch)) s)
  else if isDigitChar ch = false then .next (raiseError .invalidDigit (encode (.push ch)) s)
  else if s.sequencer.dcnt.toNat = s.maxd then .next (raiseError .ovf (encode (.push ch)) s)
  else if s.sequencer.dcnt.toNat < s.maxd then
    let q := storeDigit (digitOfChar ch) s.sequencer
    .next (respond q.dcnt { s with sequencer := q })
  else .fault .dbufIndex

/-- The AGG writes of one segment, for the digit index k: bit j of the sequence, SEG[14 - j], at 1 + 15·k + j (R133, R54). -/
def writeSegment (k : Nat) (seg : BitVec 15) (m : List (Nat × Bool)) : List (Nat × Bool) :=
  (List.range Config.nstep).foldl (fun m j => cellWrite m (1 + 15 * k + j) (seg.getLsbD (14 - j))) m

/-- Append a segment to AGG (R133). -/
def appendSegment (k : Nat) (seg : BitVec 15) (q : Sequencer) : Sequencer := { q with agg := writeSegment k seg q.agg }

/-- One digit of GO's loop (R133): seed the engine with the digit at the digit index, run it, append its segment. -/
def goDigit (s : State) : State :=
  let k := s.sequencer.digitIdx.toNat
  let s₁ := seedDigit (dbufRead s.sequencer k) s
  let e := run15 s₁.engine
  { s₁ with
    engine := e
    sequencer := { appendSegment k e.seg s.sequencer with digitIdx := s.sequencer.digitIdx + 1 } }

/-- That many digits of GO's loop, in index order (R65, R133). -/
def goLoop : Nat → State → State
  | 0, s => s
  | n + 1, s => goLoop n (goDigit s)

/-- GO's loop over every stored digit, the digit index starting at 0 (R133). -/
def goDigits (s : State) : State :=
  goLoop s.sequencer.dcnt.toNat { s with sequencer := { s.sequencer with digitIdx := 0 } }

/-- The end of GO (R133): LEN, RP and SEQ; the digit index is cleared again (log entry 10). -/
def closeInvocation (q : Sequencer) : Sequencer :=
  { q with len := 1 + 15 * q.dcnt, rp := 0, seq := .done, digitIdx := 0 }

/-- GO (R133). -/
def execGo (s : State) : Host.Outcome State Fault Refusal :=
  if s.sequencer.seq ≠ .loading then .next (raiseError .seqerr (encode .go) s)
  else if s.sequencer.dcnt.toNat ≤ s.maxd then
    let t := goDigits s
    let q := closeInvocation t.sequencer
    .next (respond q.len { t with sequencer := q })
  else .fault .dbufIndex

/-- RDBIT (R134). -/
def execRdbit (s : State) : Host.Outcome State Fault Refusal :=
  if s.sequencer.seq ≠ .done then .next (raiseError .seqerr (encode .rdbit) s)
  else if s.sequencer.rp = s.sequencer.len then .next (raiseError .eor (encode .rdbit) s)
  else if s.sequencer.rp.toNat ≤ 15 * s.maxd then
    .next (respond (bitWord (aggRead s.sequencer s.sequencer.rp.toNat))
      { s with sequencer := { s.sequencer with rp := s.sequencer.rp + 1 } })
  else .fault .aggIndex

end Sys2Proof.Machine
end

