-- ==== Sys2Proof/Machine/Control.lean ====
section
/-! DEFINITION. NOP (R152), RDREG (R151), and the rejection of an illegal word (R163). -/

namespace Sys2Proof.Machine

/-- NOP (R152). -/
def execNop (s : State) : Host.Outcome State Fault Refusal := .next (respond 0x0000 s)

/-- RDREG n (R151). -/
def execRdreg (n : Reg) (s : State) : Host.Outcome State Fault Refusal := .next (respond (registerView n s) s)

/-- A word that matches no row of the table: the ILL error outcome, in every SEQ state (R163). -/
def execIllegal (w : Word) (s : State) : Host.Outcome State Fault Refusal := .next (raiseError .ill w s)

end Sys2Proof.Machine
end

