-- ==== Sys2Proof/Machine/Dispatch.lean ====
section
/-! DEFINITION. The dispatch of a legal command to its meaning, one arm per constructor. -/

namespace Sys2Proof.Machine

def exec (i : Instr) (s : State) : Host.Outcome State Fault Refusal :=
  match i with
  | .nop => Sys2Proof.Machine.execNop s
  | .enc d => Sys2Proof.Machine.execEnc d s
  | .seed d => Sys2Proof.Machine.execSeed d s
  | .init seed szb => Sys2Proof.Machine.execInit seed szb s
  | .step => Sys2Proof.Machine.execStep s
  | .run => Sys2Proof.Machine.execRun s
  | .begin => Sys2Proof.Machine.execBegin s
  | .push ch => Sys2Proof.Machine.execPush ch s
  | .go => Sys2Proof.Machine.execGo s
  | .rdbit => Sys2Proof.Machine.execRdbit s
  | .rdreg n => Sys2Proof.Machine.execRdreg n s

end Sys2Proof.Machine
end

