-- ==== Sys2Proof/Machine/Perform.lean ====
section
/-! DEFINITION. Performing one command word: decoding it, then its meaning or the ILL outcome (R73, R163); and a run of a list of
words with its observation (R188). -/

namespace Sys2Proof.Machine

/-- One command word from decoding to its response (R14, R73, R163). -/
def perform (w : Word) (s : State) : Host.Outcome State Fault Refusal :=
  match decode w with
  | some i => exec i s
  | none => execIllegal w s

/-- A run of a finite list of command words: the responses in order, and how it ends (R188). -/
def runWords : List Word → State → List Response × Host.Outcome State Fault Refusal
  | [], s => ([], .next s)
  | w :: ws, s =>
    match perform w s with
    | .next t => (t.host.rsp.toList ++ (runWords ws t).1, (runWords ws t).2)
    | .fault x => ([], .fault x)
    | .refused x => ([], .refused x)

end Sys2Proof.Machine
end

