-- ==== Sys2Proof/Machine/Step.lean ====
section
/-! DEFINITION. One step of the machine: one command, or one reset, or waiting for the host (R14, R181, R185). -/

namespace Sys2Proof.Machine

/-- One step (log entries 1, 8 and 9). -/
def step (s : State) : Host.Outcome State Fault Refusal :=
  match fetch s with
  | .settled t => .next t
  | .command w t => perform w t

/-- The state with a table row's word as the host's next command. -/
def State.withFetchWord (s : State) (nbits w : Nat) : State := placeWord (BitVec.ofNat 16 (w % 2 ^ nbits)) s

end Sys2Proof.Machine
end

