-- ==== Sys2Proof/Machine/Assembly.lean ====
section
/-! DEFINITION. The assembler's text: one line of characters to command words (R77, R78). Log entry 14 lists what R77 leaves open. -/

namespace Sys2Proof

/-- The word token that ends here, if a character of it was read. -/
def endWord (cs : List Char) : List AsmToken := if cs = [] then [] else [.word cs]

/-- The tokens of a line: the characters left, the quoted string being read if there is one, the word being read. DESIGN CHOICE (log
entry 14): R78 does not say how a double quote among ENCODE's characters is written; here the first double quote ends the string and
there is no escape, so no ENCODE line pushes that character, and a string that no double quote ends is no line. -/
def asmTokens : List Char → Option (List Char) → List Char → Option (List AsmToken)
  | [], none, wd => some (endWord wd)
  | [], some _, _ => none
  | c :: cs, some str, wd =>
    if c = '\x22' then (asmTokens cs none []).map (AsmToken.text str :: ·) else asmTokens cs (some (str ++ [c])) wd
  | '\x27' :: q :: '\x27' :: cs, none, wd => (asmTokens cs none []).map (endWord wd ++ AsmToken.quoted q :: ·)
  | c :: cs, none, wd =>
    if c = ';' then some (endWord wd)
    else if c = ' ' ∨ c = '\t' then (asmTokens cs none []).map (endWord wd ++ ·)
    else if c = ',' then (asmTokens cs none []).map (endWord wd ++ AsmToken.comma :: ·)
    else if c = '[' then (asmTokens cs none []).map (endWord wd ++ AsmToken.openList :: ·)
    else if c = ']' then (asmTokens cs none []).map (endWord wd ++ AsmToken.closeList :: ·)
    else if c = '\x22' then (asmTokens cs (some []) []).map (endWord wd ++ ·)
    else asmTokens cs none (wd ++ [c])

/-- The value of one digit in a base up to 16. -/
def asmDigit (base : Nat) (c : Char) : Option Nat :=
  let v :=
    if '0' ≤ c ∧ c ≤ '9' then c.toNat - 0x30
    else if 'A' ≤ c ∧ c ≤ 'F' then c.toNat - 0x41 + 10
    else if 'a' ≤ c ∧ c ≤ 'f' then c.toNat - 0x61 + 10
    else base
  if v < base then some v else none

/-- A decimal number, of one digit or more. -/
def asmDecimal (cs : List Char) : Option Nat :=
  if cs = [] then none else cs.foldlM (fun n c => (asmDigit 10 c).map (10 * n + ·)) 0

/-- One bit of a binary literal or of a source-style list. -/
def asmBit : List Char → Option Bool
  | ['0'] => some false
  | ['1'] => some true
  | _ => none

/-- The four bits of a seed, MSB first. -/
def asmBits (x0 x1 x2 x3 : List Char) : Option AsmSeed :=
  match asmBit x0, asmBit x1, asmBit x2, asmBit x3 with
  | some b0, some b1, some b2, some b3 => some (.bits b0 b1 b2 b3)
  | _, _, _, _ => none

/-- INIT's seed as one word: `0bxxxx`, or a decimal number. -/
def asmSeed : List Char → Option AsmSeed
  | ['0', 'b', x0, x1, x2, x3] => asmBits [x0] [x1] [x2] [x3]
  | cs => (asmDecimal cs).map .num

/-- PUSH's byte value: `0xNN`. -/
def asmByte : List Char → Option AsmChar
  | ['0', 'x', hi, lo] =>
    match asmDigit 16 hi, asmDigit 16 lo with
    | some h, some l => some (.byte (16 * h + l))
    | _, _ => none
  | _ => none

/-- The names of the registers (R151). -/
def asmRegNames : List (List Char × Reg) :=
  [(['S', 'T', 'A', 'T', 'U', 'S'], .status), (['L', 'F', 'S', 'R'], .lfsr), (['S', 'E', 'G'], .seg), (['L', 'E', 'N'], .len),
    (['D', 'C', 'N', 'T'], .dcnt), (['R', 'P'], .rp), (['R', 'O', 'M', 'Q'], .romq), (['E', 'W', 'O', 'R', 'D'], .eword)]

/-- RDREG's operand: a name, or a decimal number. -/
def asmReg (cs : List Char) : Option AsmReg :=
  match asmRegNames.lookup cs with
  | some r => some (.name r)
  | none => (asmDecimal cs).map .num

/-- The lines with no operand; `len` is the LEN that READALL's own RDREG LEN reads (R78). -/
def asmPlain (len : Nat) : List (List Char × AsmLine) :=
  [(['N', 'O', 'P'], .nop), (['S', 'T', 'E', 'P'], .step), (['R', 'U', 'N'], .run), (['B', 'E', 'G', 'I', 'N'], .begin),
    (['G', 'O'], .go), (['R', 'D', 'B', 'I', 'T'], .rdbit), (['R', 'E', 'A', 'D', 'A', 'L', 'L'], .readall len)]

/-- The line that the tokens stand for, its operands not yet checked (R77, R78). -/
def asmLine (len : Nat) : List AsmToken → Option AsmLine
  | [.word m] => (asmPlain len).lookup m
  | [.word m, .word x] =>
    if m = ['E', 'N', 'C'] then (asmDecimal x).map .enc
    else if m = ['S', 'E', 'E', 'D'] then (asmDecimal x).map .seed
    else if m = ['S', 'E', 'E', 'D', 'R', 'U', 'N'] then (asmDecimal x).map .seedrun
    else if m = ['P', 'U', 'S', 'H'] then (asmByte x).map .push
    else if m = ['R', 'D', 'R', 'E', 'G'] then (asmReg x).map .rdreg
    else none
  | [.word m, .quoted c] => if m = ['P', 'U', 'S', 'H'] then some (.push (.quoted c)) else none
  | [.word m, .text cs] => if m = ['E', 'N', 'C', 'O', 'D', 'E'] then some (.encode cs) else none
  | [.word m, .word s, .comma, .word z] =>
    if m = ['I', 'N', 'I', 'T'] then (asmSeed s).bind fun s => (asmDecimal z).map (.init s) else none
  | [.word m, .openList, .word x0, .comma, .word x1, .comma, .word x2, .comma, .word x3, .closeList, .comma, .word z] =>
    if m = ['I', 'N', 'I', 'T'] then (asmBits x0 x1 x2 x3).bind fun s => (asmDecimal z).map (.init s) else none
  | _ => none

/-- The words of one line of assembler text (R77, R78); a line with nothing on it, or only a comment, has none. -/
def assembleText (len : Nat) (cs : List Char) : Option (List Word) :=
  match asmTokens cs none [] with
  | none => none
  | some [] => some []
  | some ts => (asmLine len ts).bind AsmLine.assemble

end Sys2Proof
end

