-- ==== Sys2Proof/Machine/Ports.lean ====
section
/-! DEFINITION. The ports and the valid/ready handshake at the level of clock edges (R180, R185, R186). No number of cycles is
assumed (R187): an input of its own says at which edge a command in progress completes. -/

namespace Sys2Proof.Machine

/-- What the block finds at a rising edge of clk: the input ports (R185), and whether the command in progress completes at this
edge, which no rule of the model fixes (R187; log entry 11). -/
structure EdgeInput where
  rst : Bool
  cmdValid : Bool
  cmdWord : Word
  finish : Bool
  deriving DecidableEq, Repr

/-- cmd_ready: 0 while BUSY (R185). -/
def cmdReady (s : State) : Bool := !s.busy

/-- rsp_valid (R185). -/
def rspValid (s : State) : Bool := s.host.rsp.isSome

/-- One rising edge (R180, R185): reset first; then the command in progress completes or goes on; else a command that is presented
is accepted; else the block waits. -/
def clockEdge (p : EdgeInput) (s : State) : Host.Outcome State Fault Refusal :=
  if p.rst then .next (applyReset s)
  else
    match s.host.inFlight with
    | some w => if p.finish then perform w s else .next (presentNothing s)
    | none => if p.cmdValid then .next (accept p.cmdWord s) else .next (presentNothing s)

/-- A run of edges, up to the first stop. -/
def clockEdges : List EdgeInput → State → Host.Outcome State Fault Refusal
  | [], s => .next s
  | p :: ps, s =>
    match clockEdge p s with
    | .next t => clockEdges ps t
    | .fault x => .fault x
    | .refused x => .refused x

end Sys2Proof.Machine
end

