-- ==== Sys2Proof/Safety.lean ====
section
/-! DEFINITION. The terms that claims use: the bits of a Run (R112), the invariants of R31, what the buffers hold (R52 to R54), the
exact effect of an error (R162), and a step that goes on. -/

namespace Sys2Proof.Safety

open Sys2Proof.Machine

/-- The register after n Steps (R111). -/
def regAfter : Nat → Nibble → Nibble
  | 0, r => r
  | n + 1, r => regAfter n (stepF r).1

/-- OutputSequence(j) of a Run that starts from the register value r: the LSB before the j-th shift, counted from 0 (R111, R112). -/
def outputBit (r : Nibble) (j : Nat) : Bool := (regAfter j r).getLsbD 0

/-- R31 (a) to (g), clause by clause. -/
structure BlockInv (s : State) : Prop where
  /-- (a) -/
  dcnt_le : s.sequencer.dcnt.toNat ≤ s.maxd
  /-- (b) -/
  rp_le : s.sequencer.rp.toNat ≤ s.sequencer.len.toNat
  /-- (c) -/
  done_len : s.sequencer.seq = .done →
    s.sequencer.len.toNat = 1 + 15 * s.sequencer.dcnt.toNat ∧ aggRead s.sequencer 0 = false
  /-- (d) -/
  open_len : s.sequencer.seq = .loading ∨ s.sequencer.seq = .failed →
    s.sequencer.len = 1 ∧ s.sequencer.rp = 0 ∧ aggRead s.sequencer 0 = false
  /-- (e) -/
  idle_zero : s.sequencer.seq = .idle → s.sequencer.dcnt = 0 ∧ s.sequencer.len = 0 ∧ s.sequencer.rp = 0
  /-- (f) -/
  ecode_zero : s.errors.ecode = 0 ↔
    s.errors.inv = false ∧ s.errors.ovf = false ∧ s.errors.ill = false ∧ s.errors.badarg = false ∧
      s.errors.seqerr = false ∧ s.errors.eor = false
  /-- (g) -/
  digits : ∀ k, k < s.sequencer.dcnt.toNat → (dbufRead s.sequencer k).toNat < 10

/-- What the buffers hold beyond R31: their canonical form and size (R50), and that every entry the block may read has been written
(R52, R53). -/
structure Stored (s : State) : Prop where
  memory_wf : Memory.wf s
  dbuf_written : ∀ k, k < s.sequencer.dcnt.toNat → (cellRead s.sequencer.dbuf k).isSome
  agg_written : ∀ i, i < s.sequencer.len.toNat → (cellRead s.sequencer.agg i).isSome

/-- R54's layout of AGG in state DONE, after the sentinel: segment k is the OutputSequence of digit k. -/
def ResultLaidOut (s : State) : Prop :=
  s.sequencer.seq = .done → ∀ k j, k < s.sequencer.dcnt.toNat → j < 15 →
    aggRead s.sequencer (1 + 15 * k + j) = outputBit (rom (dbufRead s.sequencer k)) j

/-- Two states that differ in nothing but buffer entries the block may not read: DBUF at or above DCNT (R52), AGG at or above LEN
(R53). -/
structure SameLive (s s' : State) : Prop where
  others : { s' with sequencer := { s'.sequencer with dbuf := s.sequencer.dbuf, agg := s.sequencer.agg } } = s
  dbuf : ∀ k, k < s.sequencer.dcnt.toNat → dbufRead s'.sequencer k = dbufRead s.sequencer k
  agg : ∀ i, i < s.sequencer.len.toNat → aggRead s'.sequencer i = aggRead s.sequencer i

/-- The error outcome of R162, written out: from s to t, error e on word w. -/
structure RejectedAs (e : ErrorKind) (w : Word) (s t : State) : Prop where
  inv : t.errors.inv = (s.errors.inv || decide (e = .invalidDigit))
  ovf : t.errors.ovf = (s.errors.ovf || decide (e = .ovf))
  ill : t.errors.ill = (s.errors.ill || decide (e = .ill))
  badarg : t.errors.badarg = (s.errors.badarg || decide (e = .badarg))
  seqerr : t.errors.seqerr = (s.errors.seqerr || decide (e = .seqerr))
  eor : t.errors.eor = (s.errors.eor || decide (e = .eor))
  ecode : t.errors.ecode =
    match e with
    | .invalidDigit => 1
    | .ovf => 2
    | .ill => 3
    | .badarg => 4
    | .seqerr => 5
    | .eor => 6
  eword : t.errors.eword = w
  seq : t.sequencer.seq = if e = .invalidDigit ∨ e = .ovf then .failed else s.sequencer.seq
  response : t.host.rsp = some { ok := false, data := 0x0000#16 }
  engine : t.engine = s.engine
  romq : t.romq = s.romq
  /-- DCNT, LEN, RP and both buffers: everything of the sequencer but SEQ. -/
  sequencer : { t.sequencer with seq := s.sequencer.seq } = s.sequencer
  /-- The block is no longer BUSY once it presents the response (R185). -/
  ready : t.host.inFlight = none
  inputs : t.host.inputs = s.host.inputs
  capacity : t.capacity = s.capacity

/-- A command answered with success and data d, the host's further inputs and the capacity left alone (R150). -/
structure Answered (d : Word) (s t : State) : Prop where
  response : t.host.rsp = some { ok := true, data := d }
  /-- The block is no longer BUSY once it presents the response (R185). -/
  ready : t.host.inFlight = none
  inputs : t.host.inputs = s.host.inputs
  capacity : t.capacity = s.capacity

/-- Nothing of the block itself has changed: engine, ROMQ, sequencer with its buffers, error record. -/
structure SameBlock (s t : State) : Prop where
  engine : t.engine = s.engine
  romq : t.romq = s.romq
  sequencer : t.sequencer = s.sequencer
  errors : t.errors = s.errors

/-- The reset column of R21 to R27, as R180 lists it, with the hidden state cleared and no response presented. -/
structure ResetValues (s : State) : Prop where
  r : s.engine.r = 0b0000#4
  sc : s.engine.sc = 0x00#8
  sz : s.engine.sz = false
  ob : s.engine.ob = false
  seg : s.engine.seg = 0#15
  romq : s.romq = 0b0000#4
  seq : s.sequencer.seq = .idle
  dcnt : s.sequencer.dcnt = 0#16
  len : s.sequencer.len = 0#16
  rp : s.sequencer.rp = 0#16
  flags : s.errors.inv = false ∧ s.errors.ovf = false ∧ s.errors.ill = false ∧ s.errors.badarg = false ∧
    s.errors.seqerr = false ∧ s.errors.eor = false
  ecode : s.errors.ecode = 0#4
  eword : s.errors.eword = 0x0000#16
  runcnt : s.engine.runcnt = 0#4
  digitIdx : s.sequencer.digitIdx = 0#16
  busy : s.busy = false
  response : s.host.rsp = none

/-- A step that neither faults nor is refused. -/
def GoesOn (s : State) : Prop := ∃ t, step s = .next t

/-- The number of a SEQ state, as R23 gives it. -/
def seqNumber : SeqState → Nat
  | .idle => 0
  | .loading => 1
  | .done => 2
  | .failed => 3

/-- When error e applies to a legal command, as R164 to R168 state it. -/
def ErrorApplies (i : Instr) (s : State) : ErrorKind → Prop
  | .ill => False
  | .badarg => ∃ d : Nibble, (i = .enc d ∨ i = .seed d) ∧ 10 ≤ d.toNat
  | .seqerr =>
    ((∃ ch, i = .push ch) ∨ i = .go) ∧ s.sequencer.seq ≠ .loading ∨ i = .rdbit ∧ s.sequencer.seq ≠ .done
  | .invalidDigit => ∃ ch : BitVec 8, i = .push ch ∧ (ch.toNat < 0x30 ∨ 0x39 < ch.toNat)
  | .ovf => ∃ ch : BitVec 8, i = .push ch ∧ s.sequencer.dcnt.toNat = s.maxd
  | .eor => i = .rdbit ∧ s.sequencer.rp = s.sequencer.len

/-- The order of R169. -/
def errorOrder : List ErrorKind := [.ill, .badarg, .seqerr, .invalidDigit, .ovf, .eor]

end Sys2Proof.Safety
end

