-- ==== Sys2Proof/Certificates/Slice0/Obligations.lean ====
section
/-! DEFINITION. The statements about the block, in the order of OBLIGATIONS.json. -/

open Sys2Proof Sys2Proof.Machine Sys2Proof.Safety

/-- Decoding the encoding of any command gives the command back, with every operand at every value (R70 to R73). -/
def Obligations.DecodeEncodeRoundTrip : Prop := ∀ i : Instr, decode (encode i) = some i

/-- A word that decodes is the encoding of what it decodes to: no two words stand for one command (R70 to R73). -/
def Obligations.EncodeDecodeRoundTrip : Prop := ∀ (w : Word) (i : Instr), decode w = some i → encode i = w

/-- R73, with its table written out: at most one row matches a word; it is legal exactly when one does, it then has that row's
mnemonic, and an illegal word is rejected with ILL. -/
def Obligations.LegalExactlyWhenOneRowMatches : Prop :=
  let table : List (Mnemonic × Word × Word) :=
    [(.nop, 0x0000, 0xFFFF), (.enc, 0x1000, 0xFFF0), (.seed, 0x2000, 0xFFF0), (.init, 0x3000, 0xFFE0),
      (.step, 0x4000, 0xFFFF), (.run, 0x5000, 0xFFFF), (.begin, 0x6000, 0xFFFF), (.push, 0x7000, 0xFF00),
      (.go, 0x8000, 0xFFFF), (.rdbit, 0x9000, 0xFFFF), (.rdreg, 0xA000, 0xFFF8)]
  ∀ w : Word,
    (table.filter fun row => w &&& row.2.2 == row.2.1).length ≤ 1 ∧
      ((decode w).isSome ↔ (table.filter fun row => w &&& row.2.2 == row.2.1).length = 1) ∧
      (∀ i, decode w = some i → ∃ row ∈ table, row.1 = i.mnemonic ∧ w &&& row.2.2 = row.2.1) ∧
      (decode w = none → ∀ s : State, ∃ t, perform w s = .next t ∧ RejectedAs .ill w s t)

/-- R163: a word is illegal exactly when its opcode is 0xB to 0xF or a reserved operand bit is 1, and in every SEQ state it is
rejected with ILL; the rule's five examples. -/
def Obligations.ReservedWordsAreRejected : Prop :=
  (∀ w : Word,
    (decode w = none ↔
      0xB ≤ (w.extractLsb' 12 4).toNat ∨
        w &&&
            (match (w.extractLsb' 12 4).toNat with
            | 0x1 => 0x0FF0#16
            | 0x2 => 0x0FF0#16
            | 0x3 => 0x0FE0#16
            | 0x7 => 0x0F00#16
            | 0xA => 0x0FF8#16
            | _ => 0x0FFF#16) ≠ 0#16)) ∧
    (∀ (w : Word) (s : State), decode w = none → ∃ t, perform w s = .next t ∧ RejectedAs .ill w s t) ∧
    ∀ w ∈ [0xB000#16, 0xF123#16, 0x0001#16, 0x7130#16, 0x3020#16], decode w = none

/-- Words of the spec's examples decode to the commands they stand for (R77, 95_test_vectors.md). -/
def Obligations.SampleWordsDecode : Prop :=
  decode 0x0000#16 = some .nop ∧ decode 0x1009#16 = some (.enc 9) ∧ decode 0x2003#16 = some (.seed 3) ∧
    decode 0x3009#16 = some (.init 0b1001 false) ∧ decode 0x3013#16 = some (.init 0b0011 true) ∧
    decode 0x4000#16 = some .step ∧ decode 0x5000#16 = some .run ∧ decode 0x6000#16 = some .begin ∧
    decode 0x7030#16 = some (.push 0x30) ∧ decode 0x7061#16 = some (.push 0x61) ∧ decode 0x8000#16 = some .go ∧
    decode 0x9000#16 = some .rdbit ∧ decode 0xA003#16 = some (.rdreg .len) ∧ decode 0x1010#16 = none

/-- R78: what the three pseudo-commands expand to, as words. The bound 128 on a character's code is the model's reading of D10
(log entry 13). -/
def Obligations.PseudoCommandsExpand : Prop :=
  (∀ cs : List Char, (∀ c ∈ cs, c.toNat < 128) →
    (AsmLine.encode cs).assemble =
      some (0x6000#16 :: cs.map (fun c => 0x70#8 ++ BitVec.ofNat 8 c.toNat) ++ [0x8000#16])) ∧
    (∀ n, n ≤ 65535 → (AsmLine.readall n).assemble = some (0xA003#16 :: List.replicate n 0x9000#16)) ∧
    ∀ d, d ≤ 15 → (AsmLine.seedrun d).assemble = some [BitVec.ofNat 16 (0x2000 + d), 0x5000#16]

/-- R77's eight examples and its forms of INIT's seed, as lines of text, with what stands around an operand as log entry 14 has it. -/
def Obligations.AssemblerTextExamples : Prop :=
  assembleText 0 "ENC 9".toList = some [0x1009#16] ∧ assembleText 0 "SEED 3".toList = some [0x2003#16] ∧
    assembleText 0 "INIT 0b1001, 0".toList = some [0x3009#16] ∧ assembleText 0 "INIT 0b0011, 1".toList = some [0x3013#16] ∧
    assembleText 0 "INIT [0,0,1,1], 1".toList = some [0x3013#16] ∧ assembleText 0 "INIT 3,1".toList = some [0x3013#16] ∧
    assembleText 0 "PUSH '0'".toList = some [0x7030#16] ∧ assembleText 0 "PUSH 'a'".toList = some [0x7061#16] ∧
    assembleText 0 "PUSH 0x61 ; 'a'".toList = some [0x7061#16] ∧ assembleText 0 "RDREG LEN".toList = some [0xA003#16] ∧
    assembleText 0 "SEED 16".toList = none

/-- Every command can be written as a line of assembler text (R77; log entry 14). -/
def Obligations.EveryCommandHasALine : Prop := ∀ i : Instr, ∃ line, assembleText 0 line = some [encode i]

/-- A step on a state whose next input is a legal command runs that command: the word is accepted (taken off the host's list, the
block BUSY, no response presented), then the command has its meaning. -/
def Obligations.StepRunsDecodedCommand : Prop :=
  ∀ (s : State) (w : Word) (rest : List HostInput) (i : Instr),
    s.host.inFlight = none → s.host.inputs = .command w :: rest → decode w = some i →
      step s = exec i { s with host := { inputs := rest, inFlight := some w, rsp := none } }

/-- A step on a state with a command in progress ends that command; a step with nothing to do waits: nothing of the block changes
and no response is presented; a step whose next input is a reset resets the block (R180, R181, R185; the model's choices of log
entries 1, 4, 8 and 9). -/
def Obligations.StepWithoutNewCommand : Prop :=
  (∀ (s : State) (w : Word), s.host.inFlight = some w → step s = perform w s) ∧
    (∀ s : State, s.host.inFlight = none → s.host.inputs = [] →
      ∃ t, step s = .next t ∧ SameBlock s t ∧ t.host.rsp = none ∧ t.busy = false ∧ t.host.inputs = [] ∧
        t.capacity = s.capacity) ∧
    ∀ (s : State) (rest : List HostInput), s.host.inFlight = none → s.host.inputs = .reset :: rest →
      ∃ t, step s = .next t ∧ ResetValues t ∧ t.capacity = s.capacity ∧ t.host.inputs = rest

/-- R180: at an edge with rst = 1 every element takes its reset value, whatever the block was doing and whatever command is presented
with it: a command in progress is abandoned with no response, and the one presented is not accepted. The model's reset state is such
a state, for every capacity. -/
def Obligations.ResetGivesResetValues : Prop :=
  (∀ (p : EdgeInput) (s : State), p.rst = true → ∃ t, clockEdge p s = .next t ∧ ResetValues t ∧ t.capacity = s.capacity) ∧
    (∀ (c : Config.Capacity) (inputs : List HostInput), ResetValues (State.resetWith c inputs)) ∧ ResetValues State.reset

/-- R152: NOP. -/
def Obligations.NopWritesNothing : Prop :=
  (∀ x : BitVec 12, decode (0x0#4 ++ x) = if x = 0 then some .nop else none) ∧
    ∀ s : State, ∃ t, exec .nop s = .next t ∧ Answered 0x0000#16 s t ∧ SameBlock s t

/-- R102: ENC, with its encoding, its BADARG case and its frame. ROM(d) for a digit is its 4-bit binary representation (R100). -/
def Obligations.EncLooksUpTheCode : Prop :=
  ∀ d : Nibble,
    (∀ x : BitVec 8, decode (0x1#4 ++ x ++ d) = if x = 0 then some (.enc d) else none) ∧
      ∀ s : State,
        (d.toNat < 10 →
          ∃ t, exec (.enc d) s = .next t ∧ Answered (BitVec.ofNat 16 d.toNat) s t ∧ t.romq = BitVec.ofNat 4 d.toNat ∧
            t.engine = s.engine ∧ t.sequencer = s.sequencer ∧ t.errors = s.errors) ∧
          (10 ≤ d.toNat → ∃ t, exec (.enc d) s = .next t ∧ RejectedAs .badarg (0x1#4 ++ 0#8 ++ d) s t)

/-- R103: SEED, with its encoding, its BADARG case and its frame. -/
def Obligations.SeedSetsTheEngine : Prop :=
  ∀ d : Nibble,
    (∀ x : BitVec 8, decode (0x2#4 ++ x ++ d) = if x = 0 then some (.seed d) else none) ∧
      ∀ s : State,
        (d.toNat < 10 →
          ∃ t, exec (.seed d) s = .next t ∧
            Answered
              (BitVec.ofNat 16 ((if d.toNat < 8 then 0x0010 else 0x0100) + 32 * s.engine.ob.toNat + d.toNat)) s t ∧
            t.romq = d ∧ t.engine.r = d ∧ t.engine.sz = decide (d.toNat < 8) ∧
            t.engine.sc = (if d.toNat < 8 then 0x00#8 else 0x01#8) ∧ t.engine.ob = s.engine.ob ∧
            t.engine.seg = s.engine.seg ∧ t.engine.runcnt = s.engine.runcnt ∧ t.sequencer = s.sequencer ∧
            t.errors = s.errors) ∧
          (10 ≤ d.toNat → ∃ t, exec (.seed d) s = .next t ∧ RejectedAs .badarg (0x2#4 ++ 0#8 ++ d) s t)

/-- R113 and R110: INIT, with its encoding and its frame, for all 16 seeds and both StartZero values. -/
def Obligations.InitSetsTheEngine : Prop :=
  ∀ (seed : Nibble) (szb : Bool),
    (∀ x : BitVec 7,
      decode (0x3#4 ++ x ++ BitVec.ofBool szb ++ seed) = if x = 0 then some (.init seed szb) else none) ∧
      ∀ s : State,
        ∃ t, exec (.init seed szb) s = .next t ∧
          Answered
            (BitVec.ofNat 16 ((if szb then 0x0010 else 0x0100) + 32 * s.engine.ob.toNat + seed.toNat)) s t ∧
          t.engine.r = seed ∧ t.engine.sz = szb ∧ t.engine.sc = (if szb then 0x00#8 else 0x01#8) ∧
          t.engine.ob = s.engine.ob ∧ t.engine.seg = s.engine.seg ∧ t.engine.runcnt = s.engine.runcnt ∧
          t.romq = s.romq ∧ t.sequencer = s.sequencer ∧ t.errors = s.errors

/-- R114 and R111: STEP, bit by bit, with its encoding and its frame. -/
def Obligations.StepShiftsTheRegister : Prop :=
  (∀ x : BitVec 12, decode (0x4#4 ++ x) = if x = 0 then some .step else none) ∧
    ∀ s : State,
      ∃ t, exec .step s = .next t ∧ Answered (BitVec.ofNat 16 (s.engine.r.getLsbD 0).toNat) s t ∧
        t.engine.r.getLsbD 3 = (s.engine.r.getLsbD 0 ^^ s.engine.r.getLsbD 1) ∧
        t.engine.r.getLsbD 2 = s.engine.r.getLsbD 3 ∧ t.engine.r.getLsbD 1 = s.engine.r.getLsbD 2 ∧
        t.engine.r.getLsbD 0 = s.engine.r.getLsbD 1 ∧ t.engine.ob = s.engine.r.getLsbD 0 ∧
        t.engine.sc.toNat = (s.engine.sc.toNat + 1) % 256 ∧ t.engine.sz = s.engine.sz ∧
        t.engine.seg = s.engine.seg ∧ t.engine.runcnt = s.engine.runcnt ∧ t.romq = s.romq ∧
        t.sequencer = s.sequencer ∧ t.errors = s.errors

/-- R115 and R112: RUN, with its encoding and its frame. Bit j of the OutputSequence is SEG[14 - j]. -/
def Obligations.RunTakesFifteenSteps : Prop :=
  (∀ x : BitVec 12, decode (0x5#4 ++ x) = if x = 0 then some .run else none) ∧
    ∀ s : State,
      ∃ t, exec .run s = .next t ∧ Answered (BitVec.ofNat 16 t.engine.seg.toNat) s t ∧
        (∀ j, j < 15 → t.engine.seg.getLsbD (14 - j) = outputBit s.engine.r j) ∧
        t.engine.r = regAfter 15 s.engine.r ∧ t.engine.ob = outputBit s.engine.r 14 ∧
        t.engine.sc.toNat = (s.engine.sc.toNat + 15) % 256 ∧ t.engine.sz = s.engine.sz ∧ t.romq = s.romq ∧
        t.sequencer = s.sequencer ∧ t.errors = s.errors

/-- R112: a RUN does what 15 STEP commands do, and its SEG is their 15 response bits in order. -/
def Obligations.RunIsFifteenStepCommands : Prop :=
  ∀ s : State,
    ∃ t rs u, exec .run s = .next t ∧ runWords (List.replicate 15 0x4000#16) s = (rs, .next u) ∧ rs.length = 15 ∧
      (∀ j, j < 15 → rs[j]? = some { ok := true, data := BitVec.ofNat 16 (t.engine.seg.getLsbD (14 - j)).toNat }) ∧
      t.engine.r = u.engine.r ∧ t.engine.sc = u.engine.sc ∧ t.engine.ob = u.engine.ob ∧ t.engine.sz = u.engine.sz

/-- R116: the next-state table (fb, R', o for each R in order); the one cycle of the 15 nonzero values; 15 Steps bring the register
back; a nonzero seed's OutputSequence has eight 1 bits and seven 0 bits, and follows the recurrence of x^4 + x + 1. -/
def Obligations.NextStateTableAndPeriod : Prop :=
  let table : List (Bool × Nibble × Bool) :=
    [(false, 0b0000, false), (true, 0b1000, true), (true, 0b1001, false), (false, 0b0001, true), (false, 0b0010, false),
      (true, 0b1010, true), (true, 0b1011, false), (false, 0b0011, true), (false, 0b0100, false), (true, 0b1100, true),
      (true, 0b1101, false), (false, 0b0101, true), (false, 0b0110, false), (true, 0b1110, true), (true, 0b1111, false),
      (false, 0b0111, true)]
  let cycle : List Nibble :=
    [0b0001, 0b1000, 0b0100, 0b0010, 0b1001, 0b1100, 0b0110, 0b1011, 0b0101, 0b1010, 0b1101, 0b1110, 0b1111, 0b0111, 0b0011]
  (∀ s : State, ∃ t, exec .step s = .next t ∧
    table[s.engine.r.toNat]? = some (s.engine.r.getLsbD 0 ^^ s.engine.r.getLsbD 1, t.engine.r, t.engine.ob)) ∧
    (∀ (s : State) (k : Nat), k < 15 → cycle[k]? = some s.engine.r →
      ∃ t, exec .step s = .next t ∧ cycle[(k + 1) % 15]? = some t.engine.r) ∧
    ∀ s : State, ∃ t, exec .run s = .next t ∧ t.engine.r = s.engine.r ∧
      (s.engine.r ≠ 0 →
        ((List.range 15).filter fun j => t.engine.seg.getLsbD j).length = 8 ∧
          ((List.range 15).filter fun j => !t.engine.seg.getLsbD j).length = 7) ∧
      ∀ j, j + 4 < 15 →
        t.engine.seg.getLsbD (14 - (j + 4)) = (t.engine.seg.getLsbD (14 - (j + 1)) ^^ t.engine.seg.getLsbD (14 - j))

/-- R117: from R = 0000 every STEP and every RUN yields only 0 bits, and R stays 0000. -/
def Obligations.ZeroRegisterIsFixed : Prop :=
  ∀ s : State, s.engine.r = 0b0000#4 →
    (∃ t, exec .step s = .next t ∧ t.engine.r = 0b0000#4 ∧ t.host.rsp = some { ok := true, data := 0 }) ∧
      ∃ t, exec .run s = .next t ∧ t.engine.r = 0b0000#4 ∧ t.engine.seg = 0#15 ∧
        t.host.rsp = some { ok := true, data := 0 }

/-- R120: INIT then RUN, from any two states: the OutputSequence and the final R depend only on the seed, and everything INIT and RUN
determine (R, SC, SZ, OB, SEG) only on the seed and StartZero. -/
def Obligations.SameSeedSameSegment : Prop :=
  ∀ (s s' : State) (seed : Nibble) (z z' : Bool),
    ∃ t u t' u', exec (.init seed z) s = .next t ∧ exec .run t = .next u ∧ exec (.init seed z') s' = .next t' ∧
      exec .run t' = .next u' ∧ u.engine.seg = u'.engine.seg ∧ u.engine.r = u'.engine.r ∧ u.host.rsp = u'.host.rsp ∧
      (z = z' → u.engine.sc = u'.engine.sc ∧ u.engine.sz = u'.engine.sz ∧ u.engine.ob = u'.engine.ob)

/-- R119: only Initialize and Step write SC, and nothing but RDREG 1 reads it: a command on a state with another SC has the same
outcome but for SC. After Initialize then Run15, SC is 15 or 16. -/
def Obligations.StepCounterBoundsNothing : Prop :=
  (∀ (i : Instr) (s t : State), exec i s = .next t →
    (∀ d, i ≠ .seed d) → (∀ c z, i ≠ .init c z) → i ≠ .step → i ≠ .run → i ≠ .go → t.engine.sc = s.engine.sc) ∧
    (∀ (i : Instr) (s t : State) (x : BitVec 8), i ≠ .rdreg .lfsr → exec i s = .next t →
      ∃ t', exec i { s with engine := { s.engine with sc := x } } = .next t' ∧
        { t' with engine := { t'.engine with sc := 0 } } = { t with engine := { t.engine with sc := 0 } }) ∧
    ∀ (s : State) (c : Nibble) (z : Bool), ∃ t u, exec (.init c z) s = .next t ∧ exec .run t = .next u ∧
      u.engine.sc = if z then 15#8 else 16#8

/-- R118: INIT, STEP and RUN complete in every SEQ state, leave the sequencer, both buffers, STATUS and EWORD alone and do not depend on
them. R104: ENC and SEED likewise for the sequencer and both buffers; that they cannot change the result of GO is
GoIgnoresEarlierEngine. -/
def Obligations.EngineCommandsAreIndependent : Prop :=
  (∀ (i : Instr) (s : State), ((∃ c z, i = .init c z) ∨ i = .step ∨ i = .run) →
    ∃ t, exec i s = .next t ∧ t.sequencer = s.sequencer ∧ t.errors = s.errors ∧
      ∀ (q : Sequencer) (x : ErrorRecord),
        exec i { s with sequencer := q, errors := x } = .next { t with sequencer := q, errors := x }) ∧
    ∀ (i : Instr) (s : State), (∃ d, i = .enc d ∨ i = .seed d) →
      ∃ t, exec i s = .next t ∧ t.sequencer = s.sequencer ∧
        ∀ q : Sequencer, exec i { s with sequencer := q } = .next { t with sequencer := q }

/-- R32 and R104: nothing that earlier commands left in the engine or in ROMQ affects what GO appends to AGG, nor anything else GO does but the
engine it keeps when there is no digit. -/
def Obligations.GoIgnoresEarlierEngine : Prop :=
  ∀ (s t : State) (e : Engine) (c : Nibble), exec .go s = .next t →
    ∃ t', exec .go { s with engine := e, romq := c } = .next t' ∧ t'.sequencer = t.sequencer ∧ t'.host = t.host ∧
      t'.errors = t.errors ∧
      (s.sequencer.seq = .loading → s.sequencer.dcnt ≠ 0 →
        t'.engine.r = t.engine.r ∧ t'.engine.sc = t.engine.sc ∧ t'.engine.sz = t.engine.sz ∧ t'.engine.ob = t.engine.ob ∧
          t'.engine.seg = t.engine.seg ∧ t'.romq = t.romq)

/-- R130: BEGIN, with its encoding and its frame, in every SEQ state. -/
def Obligations.BeginOpensAnInvocation : Prop :=
  (∀ x : BitVec 12, decode (0x6#4 ++ x) = if x = 0 then some .begin else none) ∧
    ∀ s : State,
      ∃ t, exec .begin s = .next t ∧ Answered 0x0000#16 s t ∧ t.sequencer.seq = .loading ∧ t.sequencer.dcnt = 0#16 ∧
        t.sequencer.len = 1#16 ∧ t.sequencer.rp = 0#16 ∧ aggRead t.sequencer 0 = false ∧
        (∀ i, i ≠ 0 → aggRead t.sequencer i = aggRead s.sequencer i) ∧ t.sequencer.dbuf = s.sequencer.dbuf ∧
        t.sequencer.digitIdx = s.sequencer.digitIdx ∧
        t.errors =
          { inv := false, ovf := false, ill := false, badarg := false, seqerr := false, eor := false, ecode := 0, eword := 0 } ∧
        t.engine = s.engine ∧ t.romq = s.romq

/-- R131, R132, R165 and R166: PUSH, with its encoding, its frame, and each of its errors under exactly the condition that R131 gives
it. R24 bounds DCNT by MAXD; where a state breaks that, StopsOnlyOutsideTheBuffers says what happens. -/
def Obligations.PushStoresADigitOrFails : Prop :=
  ∀ ch : BitVec 8,
    (∀ x : BitVec 4, decode (0x7#4 ++ x ++ ch) = if x = 0 then some (.push ch) else none) ∧
      ∀ s : State,
        (s.sequencer.seq ≠ .loading →
          ∃ t, exec (.push ch) s = .next t ∧ RejectedAs .seqerr (0x70#8 ++ ch) s t) ∧
        (s.sequencer.seq = .loading → ch.toNat < 0x30 ∨ 0x39 < ch.toNat →
          ∃ t, exec (.push ch) s = .next t ∧ RejectedAs .invalidDigit (0x70#8 ++ ch) s t) ∧
        (s.sequencer.seq = .loading → 0x30 ≤ ch.toNat → ch.toNat ≤ 0x39 → s.sequencer.dcnt.toNat = s.maxd →
          ∃ t, exec (.push ch) s = .next t ∧ RejectedAs .ovf (0x70#8 ++ ch) s t) ∧
        (s.sequencer.seq = .loading → 0x30 ≤ ch.toNat → ch.toNat ≤ 0x39 → s.sequencer.dcnt.toNat < s.maxd →
          ∃ t, exec (.push ch) s = .next t ∧ Answered (BitVec.ofNat 16 (s.sequencer.dcnt.toNat + 1)) s t ∧
            t.sequencer.dcnt.toNat = s.sequencer.dcnt.toNat + 1 ∧
            dbufRead t.sequencer s.sequencer.dcnt.toNat = BitVec.ofNat 4 (ch.toNat - 0x30) ∧
            (∀ k, k ≠ s.sequencer.dcnt.toNat → dbufRead t.sequencer k = dbufRead s.sequencer k) ∧
            { t.sequencer with dcnt := s.sequencer.dcnt, dbuf := s.sequencer.dbuf } = s.sequencer ∧
            t.engine = s.engine ∧ t.romq = s.romq ∧ t.errors = s.errors)

/-- R133: GO, with its encoding, what it leaves in every register and every AGG entry, and its error. R24 bounds DCNT by MAXD; where a
state breaks that, StopsOnlyOutsideTheBuffers says what happens. -/
def Obligations.GoRunsEveryDigit : Prop :=
  (∀ x : BitVec 12, decode (0x8#4 ++ x) = if x = 0 then some .go else none) ∧
    (∀ d : Nibble, d.toNat < 10 → rom d = d) ∧
    ∀ s : State,
      (s.sequencer.seq ≠ .loading → ∃ t, exec .go s = .next t ∧ RejectedAs .seqerr 0x8000#16 s t) ∧
      (s.sequencer.seq = .loading → s.sequencer.dcnt.toNat ≤ s.maxd →
        ∃ t, exec .go s = .next t ∧ Answered (BitVec.ofNat 16 (1 + 15 * s.sequencer.dcnt.toNat)) s t ∧
          t.sequencer.seq = .done ∧ t.sequencer.len.toNat = 1 + 15 * s.sequencer.dcnt.toNat ∧ t.sequencer.rp = 0#16 ∧
          t.sequencer.dcnt = s.sequencer.dcnt ∧ t.sequencer.dbuf = s.sequencer.dbuf ∧
          (∀ k j, k < s.sequencer.dcnt.toNat → j < 15 →
            aggRead t.sequencer (1 + 15 * k + j) = outputBit (rom (dbufRead s.sequencer k)) j) ∧
          (∀ i, i = 0 ∨ 1 + 15 * s.sequencer.dcnt.toNat ≤ i → aggRead t.sequencer i = aggRead s.sequencer i) ∧
          t.errors = s.errors ∧
          (s.sequencer.dcnt = 0#16 → t.engine = s.engine ∧ t.romq = s.romq) ∧
          ∀ c : Nibble, s.sequencer.dcnt ≠ 0#16 → c = rom (dbufRead s.sequencer (s.sequencer.dcnt.toNat - 1)) →
            t.romq = c ∧ t.engine.r = c ∧ t.engine.sz = !c.getLsbD 3 ∧
              t.engine.sc = (if c.getLsbD 3 then 0x10#8 else 0x0F#8) ∧ t.engine.ob = outputBit c 14 ∧
              ∀ j, j < 15 → t.engine.seg.getLsbD (14 - j) = outputBit c j)

/-- R134 and R168: RDBIT, with its encoding, its frame and its errors. R50 ends AGG at index 15·MAXD; where a state has RP beyond that,
StopsOnlyOutsideTheBuffers says what happens. -/
def Obligations.RdbitHandsOverTheNextBit : Prop :=
  (∀ x : BitVec 12, decode (0x9#4 ++ x) = if x = 0 then some .rdbit else none) ∧
    ∀ s : State,
      (s.sequencer.seq ≠ .done → ∃ t, exec .rdbit s = .next t ∧ RejectedAs .seqerr 0x9000#16 s t) ∧
      (s.sequencer.seq = .done → s.sequencer.rp = s.sequencer.len →
        ∃ t, exec .rdbit s = .next t ∧ RejectedAs .eor 0x9000#16 s t) ∧
      (s.sequencer.seq = .done → s.sequencer.rp ≠ s.sequencer.len → s.sequencer.rp.toNat ≤ 15 * s.maxd →
        ∃ t, exec .rdbit s = .next t ∧
          Answered (BitVec.ofNat 16 (aggRead s.sequencer s.sequencer.rp.toNat).toNat) s t ∧
          t.sequencer.rp.toNat = s.sequencer.rp.toNat + 1 ∧
          { t.sequencer with rp := s.sequencer.rp } = s.sequencer ∧
          t.engine = s.engine ∧ t.romq = s.romq ∧ t.errors = s.errors)

/-- R151: RDREG, with its encoding, each of the eight views as a number (R26 for STATUS), and that it writes nothing. -/
def Obligations.RdregReadsARegister : Prop :=
  (∀ (x : BitVec 9) (n : BitVec 3),
    decode (0xA#4 ++ x ++ n) =
      if x = 0 then
        some (.rdreg ([Reg.status, .lfsr, .seg, .len, .dcnt, .rp, .romq, .eword].getD n.toNat .status))
      else none) ∧
    ∀ (n : Reg) (s : State),
      ∃ t, exec (.rdreg n) s = .next t ∧ SameBlock s t ∧
        Answered
          (match n with
          | .status =>
            BitVec.ofNat 16
              (seqNumber s.sequencer.seq +
                4 * s.errors.inv.toNat + 8 * s.errors.ovf.toNat + 16 * s.errors.ill.toNat + 32 * s.errors.badarg.toNat +
                64 * s.errors.seqerr.toNat + 128 * s.errors.eor.toNat + 256 * s.errors.ecode.toNat)
          | .lfsr =>
            BitVec.ofNat 16
              (256 * s.engine.sc.toNat + 32 * s.engine.ob.toNat + 16 * s.engine.sz.toNat + s.engine.r.toNat)
          | .seg => BitVec.ofNat 16 s.engine.seg.toNat
          | .len => s.sequencer.len
          | .dcnt => s.sequencer.dcnt
          | .rp => s.sequencer.rp
          | .romq => BitVec.ofNat 16 s.romq.toNat
          | .eword => s.errors.eword)
          s t

/-- R162 and R160: a command that is rejected changes exactly what the error outcome names, for one error: ILL if the word is illegal,
else an error that applies to the command. -/
def Obligations.RejectionIsPrecise : Prop :=
  ∀ (w : Word) (s t : State), perform w s = .next t → t.host.rsp.map Response.ok = some false →
    ∃ e, RejectedAs e w s t ∧
      match decode w with
      | none => e = .ill
      | some i => ErrorApplies i s e

/-- R169: of the errors that apply to a word, the first in the order is raised and no other; where none applies and the command goes
on, it is answered with success. -/
def Obligations.FirstErrorIsRaised : Prop :=
  (∀ (w : Word) (s : State), decode w = none → ∃ t, perform w s = .next t ∧ RejectedAs .ill w s t) ∧
    (∀ (i : Instr) (s : State) (e : ErrorKind), ErrorApplies i s e →
      (∀ e' ∈ errorOrder.takeWhile (fun e' => decide (e' ≠ e)), ¬ ErrorApplies i s e') →
        ∃ t, perform (encode i) s = .next t ∧ RejectedAs e (encode i) s t) ∧
    ∀ (i : Instr) (s t : State), (∀ e, ¬ ErrorApplies i s e) → exec i s = .next t → ∃ d, Answered d s t

/-- Where a legal command stops, and that it does so nowhere else (the model's own stops, log entry 7): it would need a buffer entry
that R50 does not give. It is never refused. -/
def Obligations.StopsOnlyOutsideTheBuffers : Prop :=
  ∀ (i : Instr) (s : State),
    (∀ x, exec i s ≠ .refused x) ∧
      (exec i s = .fault .dbufIndex ↔
        s.sequencer.seq = .loading ∧ s.maxd < s.sequencer.dcnt.toNat ∧
          (i = .go ∨ ∃ ch : BitVec 8, i = .push ch ∧ 0x30 ≤ ch.toNat ∧ ch.toNat ≤ 0x39)) ∧
      (exec i s = .fault .aggIndex ↔
        i = .rdbit ∧ s.sequencer.seq = .done ∧ s.sequencer.rp ≠ s.sequencer.len ∧ 15 * s.maxd < s.sequencer.rp.toNat)

/-- R150: every command that goes on produces exactly one response, whose data is 0x0000 when it is rejected; the block is then no
longer BUSY; the host's further inputs and MAXD are as before. -/
def Obligations.EveryCommandIsAnsweredOnce : Prop :=
  ∀ (w : Word) (s t : State), perform w s = .next t →
    ∃ a, t.host.rsp = some a ∧ (a.ok = false → a.data = 0x0000#16) ∧ t.busy = false ∧ t.host.inputs = s.host.inputs ∧
      t.capacity = s.capacity

/-- R171: no command but BEGIN clears an error flag or leaves FAILED; a command that succeeds leaves the error record as it was, and
after one that is rejected ECODE and EWORD are its own. -/
def Obligations.ErrorFlagsAreSticky : Prop :=
  ∀ (w : Word) (s t : State), perform w s = .next t → w ≠ 0x6000#16 →
    (s.errors.inv = true → t.errors.inv = true) ∧ (s.errors.ovf = true → t.errors.ovf = true) ∧
      (s.errors.ill = true → t.errors.ill = true) ∧ (s.errors.badarg = true → t.errors.badarg = true) ∧
      (s.errors.seqerr = true → t.errors.seqerr = true) ∧ (s.errors.eor = true → t.errors.eor = true) ∧
      (s.sequencer.seq = .failed → t.sequencer.seq = .failed) ∧
      (t.host.rsp.map Response.ok = some true → t.errors = s.errors) ∧
      (t.host.rsp.map Response.ok = some false → t.errors.ecode ≠ 0 ∧ t.errors.eword = w)

/-- R26: ECODE values 7 to 15 are never written, and STATUS[15:12] reads as 0. -/
def Obligations.StatusFieldsStayLegal : Prop :=
  (∀ s t : State, s.errors.ecode.toNat ≤ 6 → step s = .next t → t.errors.ecode.toNat ≤ 6) ∧
    ∀ s t : State, exec (.rdreg .status) s = .next t → ∃ d : Word, d.toNat < 0x1000 ∧ t.host.rsp = some { ok := true, data := d }

/-- R135: the table of SEQ's transitions; every command or outcome that is not in it leaves SEQ unchanged. -/
def Obligations.SeqTransitionTable : Prop :=
  (∀ (i : Instr) (s t : State), exec i s = .next t →
    t.sequencer.seq =
      match i, s.sequencer.seq with
      | .begin, _ => .loading
      | .push ch, .loading =>
        if (ch.toNat < 0x30 ∨ 0x39 < ch.toNat) ∨ s.sequencer.dcnt.toNat = s.maxd then .failed else .loading
      | .go, .loading => .done
      | _, q => q) ∧
    ∀ (w : Word) (s t : State), decode w = none → perform w s = .next t → t.sequencer.seq = s.sequencer.seq

/-- R31 at reset, with what the buffers hold, for every capacity and whatever the host will do. -/
def Obligations.ResetMeetsTheInvariants : Prop :=
  ∀ (c : Config.Capacity) (inputs : List HostInput),
    BlockInv (State.resetWith c inputs) ∧ Stored (State.resetWith c inputs) ∧ ResultLaidOut (State.resetWith c inputs)

/-- R31: every step keeps the invariants (a) to (g), from every state that meets them. -/
def Obligations.StepKeepsTheInvariants : Prop := ∀ s t : State, BlockInv s → step s = .next t → BlockInv t

/-- R50 to R53: every step keeps the buffers in canonical form and within their sizes, and every DBUF entry below DCNT and AGG entry
below LEN written: no command reads an entry that nothing has written. -/
def Obligations.StepKeepsTheBuffersWritten : Prop := ∀ s t : State, BlockInv s → Stored s → step s = .next t → Stored t

/-- R54: every step keeps AGG, in state DONE, the OutputSequences of the stored digits in digit order. -/
def Obligations.StepKeepsTheResultLaidOut : Prop := ∀ s t : State, ResultLaidOut s → step s = .next t → ResultLaidOut t

/-- R190: from every state that meets R31's invariants a step goes on, and every one of the 65536 words ends in success or in one of
the errors of R161. -/
def Obligations.EveryWordHasAnOutcome : Prop :=
  (∀ s : State, BlockInv s → GoesOn s) ∧
    ∀ (w : Word) (s : State), BlockInv s →
      ∃ t, perform w s = .next t ∧ ((∃ d, Answered d s t) ∨ ∃ e, RejectedAs e w s t)

/-- R188: a run of any finite list of command words from a state that meets R31's invariants ends, with one response per command, in a
state that meets them. -/
def Obligations.EveryRunIsAnswered : Prop :=
  ∀ (ws : List Word) (s : State), BlockInv s →
    ∃ rs t, runWords ws s = (rs, .next t) ∧ rs.length = ws.length ∧ BlockInv t

/-- R25, R53, R182 (D38): what the buffer entries outside DCNT and LEN hold is never observed: from a state that meets R31's invariants
and any state that differs from it only there, every run gives the same responses and ends in states that differ only there. -/
def Obligations.DeadEntriesAreNeverObserved : Prop :=
  ∀ (ws : List Word) (s s' : State), BlockInv s → SameLive s s' →
    ∃ rs t t', runWords ws s = (rs, .next t) ∧ runWords ws s' = (rs, .next t') ∧ SameLive t t'

/-- R136: from FAILED, whatever the host issues other than BEGIN: SEQ stays FAILED, no GO and no RDBIT succeeds, and neither buffer nor
any sequencer register changes. -/
def Obligations.FailedUntilBegin : Prop :=
  ∀ (ws : List Word) (s : State), s.sequencer.seq = .failed → (∀ w ∈ ws, w ≠ 0x6000#16) →
    ∃ rs t, runWords ws s = (rs, .next t) ∧ rs.length = ws.length ∧ t.sequencer = s.sequencer ∧
      ∀ p ∈ ws.zip rs, p.1 = 0x8000#16 ∨ p.1 = 0x9000#16 → p.2.ok = false

/-- R137 and R138: after GO over N digits, LEN = 1 + 15·N; exactly LEN RDBITs succeed, handing over the sentinel and then each digit's
OutputSequence in order; the next one is rejected with EOR. -/
def Obligations.ResultIsHandedOverInOrder : Prop :=
  ∀ (s : State) (n : Nat), BlockInv s → s.sequencer.seq = .loading → n = s.sequencer.dcnt.toNat →
    ∃ rs t u, runWords (0x8000#16 :: List.replicate (1 + 15 * n) 0x9000#16) s = (rs, .next t) ∧
      rs.length = 2 + 15 * n ∧ rs[0]? = some { ok := true, data := BitVec.ofNat 16 (1 + 15 * n) } ∧
      rs[1]? = some { ok := true, data := 0 } ∧
      (∀ k j, k < n → j < 15 →
        rs[2 + 15 * k + j]? =
          some { ok := true, data := BitVec.ofNat 16 (outputBit (dbufRead s.sequencer k) j).toNat }) ∧
      exec .rdbit t = .next u ∧ RejectedAs .eor 0x9000#16 t u

/-- The whole conversion (R2, R3, R78, R137, R138): from any state, ENCODE of any digits that fit, then one RDBIT per bit of the result:
every command succeeds, and the bits handed over are the sentinel and each digit's OutputSequence in digit order. -/
def Obligations.EncodingYieldsTheKeystream : Prop :=
  ∀ (s : State) (ds : List Nibble), (∀ d ∈ ds, d.toNat < 10) → ds.length ≤ s.maxd →
    ∃ rs t,
      runWords
          (0x6000#16 :: ds.map (fun d => 0x703#12 ++ d) ++ 0x8000#16 :: List.replicate (1 + 15 * ds.length) 0x9000#16) s =
        (rs, .next t) ∧
      (∀ a ∈ rs, a.ok = true) ∧
      rs.drop (2 + ds.length) =
        (false :: ds.flatMap fun d => (List.range 15).map (outputBit d)).map fun b =>
          { ok := true, data := BitVec.ofNat 16 b.toNat }

/-- An invalid character anywhere in the input (R136, 95_test_vectors.md X9): from any state, the invocation fails, GO is rejected, no
RDBIT hands over a bit, and no engine register changes: no LFSR run executes. -/
def Obligations.InvalidInputYieldsNothing : Prop :=
  ∀ (s : State) (cs : List (BitVec 8)) (n : Nat), (∃ c ∈ cs, c.toNat < 0x30 ∨ 0x39 < c.toNat) →
    ∃ rs t,
      runWords (0x6000#16 :: cs.map (fun c => 0x70#8 ++ c) ++ 0x8000#16 :: List.replicate n 0x9000#16) s = (rs, .next t) ∧
      rs.length = 2 + cs.length + n ∧ (∀ a ∈ rs.drop (1 + cs.length), a.ok = false) ∧ t.sequencer.seq = .failed ∧
      t.engine = s.engine ∧ t.romq = s.romq

/-- R78 and R133 (D20): `SEEDRUN d`, from any state, leaves the engine and ROMQ as GO over digits ending in d leaves them, and writes
nothing to AGG. -/
def Obligations.SeedRunMatchesGo : Prop :=
  ∀ (s s' : State) (d : Nibble), s.sequencer.seq = .loading → s.sequencer.dcnt ≠ 0#16 → s.sequencer.dcnt.toNat ≤ s.maxd →
    dbufRead s.sequencer (s.sequencer.dcnt.toNat - 1) = d → d.toNat < 10 →
      ∃ t rs u, exec .go s = .next t ∧ runWords [0x200#12 ++ d, 0x5000#16] s' = (rs, .next u) ∧
        u.engine.r = t.engine.r ∧ u.engine.sc = t.engine.sc ∧ u.engine.sz = t.engine.sz ∧ u.engine.ob = t.engine.ob ∧
        u.engine.seg = t.engine.seg ∧ u.romq = t.romq ∧ u.sequencer = s'.sequencer

/-- R185 at the level of clock edges, for every number of cycles a command takes: once a word is accepted, until it completes the block
is not ready, presents no response and shows no change, whatever the host presents meanwhile; the edge at which it completes
leaves what one step of the machine on that command leaves. Which edge that is, is the model's free input (log entry 11). -/
def Obligations.HandshakeRefinesTheCommand : Prop :=
  ∀ (s : State) (w : Word) (f : Bool) (stalls : List (Bool × Word)) (v : Bool) (x : Word), s.host.inFlight = none →
    (∃ u, clockEdges ({ rst := false, cmdValid := true, cmdWord := w, finish := f } ::
          stalls.map fun p => { rst := false, cmdValid := p.1, cmdWord := p.2, finish := false }) s = .next u ∧
        cmdReady u = false ∧ rspValid u = false ∧ SameBlock s u) ∧
      clockEdges ({ rst := false, cmdValid := true, cmdWord := w, finish := f } ::
          (stalls.map fun p => { rst := false, cmdValid := p.1, cmdWord := p.2, finish := false }) ++
            [{ rst := false, cmdValid := v, cmdWord := x, finish := true }]) s =
        step { s with host := { s.host with inputs := .command w :: s.host.inputs } }
end

