-- ==== Sys2Proof/Laws/State.lean ====
section
/-! SUPPORT. One lemma per field for each update of the state at the host port (answering, rejecting, accepting, waiting, reset). -/

namespace Sys2Proof.Machine

variable (s : State) (a : Response) (d w : Word) (e : ErrorKind)

@[simp] theorem answer_engine : (answer a s).engine = s.engine := rfl
@[simp] theorem answer_romq : (answer a s).romq = s.romq := rfl
@[simp] theorem answer_sequencer : (answer a s).sequencer = s.sequencer := rfl
@[simp] theorem answer_errors : (answer a s).errors = s.errors := rfl
@[simp] theorem answer_capacity : (answer a s).capacity = s.capacity := rfl
@[simp] theorem answer_inputs : (answer a s).host.inputs = s.host.inputs := rfl
@[simp] theorem answer_inFlight : (answer a s).host.inFlight = none := rfl
@[simp] theorem answer_rsp : (answer a s).host.rsp = some a := rfl
@[simp] theorem answer_maxd : (answer a s).maxd = s.maxd := rfl

@[simp] theorem respond_engine : (respond d s).engine = s.engine := rfl
@[simp] theorem respond_romq : (respond d s).romq = s.romq := rfl
@[simp] theorem respond_sequencer : (respond d s).sequencer = s.sequencer := rfl
@[simp] theorem respond_errors : (respond d s).errors = s.errors := rfl
@[simp] theorem respond_capacity : (respond d s).capacity = s.capacity := rfl
@[simp] theorem respond_inputs : (respond d s).host.inputs = s.host.inputs := rfl
@[simp] theorem respond_inFlight : (respond d s).host.inFlight = none := rfl
@[simp] theorem respond_rsp : (respond d s).host.rsp = some { ok := true, data := d } := rfl
@[simp] theorem respond_maxd : (respond d s).maxd = s.maxd := rfl

@[simp] theorem raiseError_engine : (raiseError e w s).engine = s.engine := rfl
@[simp] theorem raiseError_romq : (raiseError e w s).romq = s.romq := rfl
@[simp] theorem raiseError_errors : (raiseError e w s).errors = recordError e w s.errors := rfl
@[simp] theorem raiseError_seq :
    (raiseError e w s).sequencer.seq = if errorFatal e then .failed else s.sequencer.seq := rfl
@[simp] theorem raiseError_dcnt : (raiseError e w s).sequencer.dcnt = s.sequencer.dcnt := rfl
@[simp] theorem raiseError_len : (raiseError e w s).sequencer.len = s.sequencer.len := rfl
@[simp] theorem raiseError_rp : (raiseError e w s).sequencer.rp = s.sequencer.rp := rfl
@[simp] theorem raiseError_digitIdx : (raiseError e w s).sequencer.digitIdx = s.sequencer.digitIdx := rfl
@[simp] theorem raiseError_dbuf : (raiseError e w s).sequencer.dbuf = s.sequencer.dbuf := rfl
@[simp] theorem raiseError_agg : (raiseError e w s).sequencer.agg = s.sequencer.agg := rfl
@[simp] theorem raiseError_capacity : (raiseError e w s).capacity = s.capacity := rfl
@[simp] theorem raiseError_inputs : (raiseError e w s).host.inputs = s.host.inputs := rfl
@[simp] theorem raiseError_inFlight : (raiseError e w s).host.inFlight = none := rfl
@[simp] theorem raiseError_rsp : (raiseError e w s).host.rsp = some { ok := false, data := 0 } := rfl
@[simp] theorem raiseError_maxd : (raiseError e w s).maxd = s.maxd := rfl

@[simp] theorem recordError_ecode (x : ErrorRecord) : (recordError e w x).ecode = errorCode e := rfl
@[simp] theorem recordError_eword (x : ErrorRecord) : (recordError e w x).eword = w := rfl

@[simp] theorem accept_engine : (accept w s).engine = s.engine := rfl
@[simp] theorem accept_romq : (accept w s).romq = s.romq := rfl
@[simp] theorem accept_sequencer : (accept w s).sequencer = s.sequencer := rfl
@[simp] theorem accept_errors : (accept w s).errors = s.errors := rfl
@[simp] theorem accept_capacity : (accept w s).capacity = s.capacity := rfl
@[simp] theorem accept_inputs : (accept w s).host.inputs = s.host.inputs := rfl
@[simp] theorem accept_inFlight : (accept w s).host.inFlight = some w := rfl
@[simp] theorem accept_rsp : (accept w s).host.rsp = none := rfl
@[simp] theorem accept_maxd : (accept w s).maxd = s.maxd := rfl

@[simp] theorem presentNothing_engine : (presentNothing s).engine = s.engine := rfl
@[simp] theorem presentNothing_romq : (presentNothing s).romq = s.romq := rfl
@[simp] theorem presentNothing_sequencer : (presentNothing s).sequencer = s.sequencer := rfl
@[simp] theorem presentNothing_errors : (presentNothing s).errors = s.errors := rfl
@[simp] theorem presentNothing_capacity : (presentNothing s).capacity = s.capacity := rfl
@[simp] theorem presentNothing_inputs : (presentNothing s).host.inputs = s.host.inputs := rfl
@[simp] theorem presentNothing_inFlight : (presentNothing s).host.inFlight = s.host.inFlight := rfl
@[simp] theorem presentNothing_rsp : (presentNothing s).host.rsp = none := rfl
@[simp] theorem presentNothing_maxd : (presentNothing s).maxd = s.maxd := rfl

@[simp] theorem dropInput_engine : (dropInput s).engine = s.engine := rfl
@[simp] theorem dropInput_romq : (dropInput s).romq = s.romq := rfl
@[simp] theorem dropInput_sequencer : (dropInput s).sequencer = s.sequencer := rfl
@[simp] theorem dropInput_errors : (dropInput s).errors = s.errors := rfl
@[simp] theorem dropInput_capacity : (dropInput s).capacity = s.capacity := rfl
@[simp] theorem dropInput_inputs : (dropInput s).host.inputs = s.host.inputs.tail := rfl
@[simp] theorem dropInput_inFlight : (dropInput s).host.inFlight = s.host.inFlight := rfl
@[simp] theorem dropInput_maxd : (dropInput s).maxd = s.maxd := rfl

@[simp] theorem applyReset_inputs : (applyReset s).host.inputs = s.host.inputs := rfl
@[simp] theorem applyReset_inFlight : (applyReset s).host.inFlight = none := rfl
@[simp] theorem applyReset_rsp : (applyReset s).host.rsp = none := rfl
@[simp] theorem applyReset_capacity : (applyReset s).capacity = s.capacity := rfl
@[simp] theorem applyReset_maxd : (applyReset s).maxd = s.maxd := rfl

@[simp] theorem placeWord_inputs : (placeWord w s).host.inputs = .command w :: s.host.inputs := rfl
@[simp] theorem placeWord_inFlight : (placeWord w s).host.inFlight = none := rfl
@[simp] theorem placeWord_engine : (placeWord w s).engine = s.engine := rfl
@[simp] theorem placeWord_sequencer : (placeWord w s).sequencer = s.sequencer := rfl

/-- Two states are equal when their parts are. -/
theorem state_ext {s t : State} (he : s.engine = t.engine) (hr : s.romq = t.romq) (hq : s.sequencer = t.sequencer)
    (hx : s.errors = t.errors) (hh : s.host = t.host) (hc : s.capacity = t.capacity) : s = t := by
  cases s
  cases t
  simp only at *
  subst_vars
  rfl

/-- Two sequencers are equal when their registers and buffers are. -/
theorem sequencer_ext {p q : Sequencer} (hs : p.seq = q.seq) (hd : p.dcnt = q.dcnt) (hl : p.len = q.len) (hr : p.rp = q.rp)
    (hi : p.digitIdx = q.digitIdx) (hb : p.dbuf = q.dbuf) (ha : p.agg = q.agg) : p = q := by
  cases p
  cases q
  simp only at *
  subst_vars
  rfl

/-- An error in a state that has FAILED leaves the whole sequencer as it is. -/
theorem raiseError_sequencer_of_failed (h : s.sequencer.seq = .failed) : (raiseError e w s).sequencer = s.sequencer := by
  refine sequencer_ext ?_ rfl rfl rfl rfl rfl rfl
  rw [raiseError_seq, h, ite_self]

/-- MAXD is 1 to 4368 (R8). -/
theorem maxd_bounds : 1 ≤ s.maxd ∧ s.maxd ≤ 4368 := by
  have := s.capacity.isLt
  simp only [State.maxd, Config.maxd]
  omega

end Sys2Proof.Machine
end

