-- ==== Sys2Proof/Laws/Engine.lean ====
section
/-! SUPPORT. What Initialize, Step and Run15 do to the engine, each said once. -/

namespace Sys2Proof.Machine

open Sys2Proof.Safety

variable (e : Engine)

@[simp] theorem initEngine_r (c : Nibble) (z : Bool) : (initEngine c z e).r = c := rfl
@[simp] theorem initEngine_sz (c : Nibble) (z : Bool) : (initEngine c z e).sz = z := rfl
@[simp] theorem initEngine_sc (c : Nibble) (z : Bool) : (initEngine c z e).sc = if z then 0x00 else 0x01 := rfl
@[simp] theorem initEngine_ob (c : Nibble) (z : Bool) : (initEngine c z e).ob = e.ob := rfl
@[simp] theorem initEngine_seg (c : Nibble) (z : Bool) : (initEngine c z e).seg = e.seg := rfl
@[simp] theorem initEngine_runcnt (c : Nibble) (z : Bool) : (initEngine c z e).runcnt = e.runcnt := rfl

@[simp] theorem engineStep_r : (engineStep e).r = (stepF e.r).1 := rfl
@[simp] theorem engineStep_ob : (engineStep e).ob = e.r.getLsbD 0 := rfl
@[simp] theorem engineStep_sc : (engineStep e).sc = e.sc + 1 := rfl
@[simp] theorem engineStep_sz : (engineStep e).sz = e.sz := rfl
@[simp] theorem engineStep_seg : (engineStep e).seg = e.seg := rfl
@[simp] theorem engineStep_runcnt : (engineStep e).runcnt = e.runcnt := rfl

/-- The four bits of the next register (R111). -/
theorem stepF_bits : ∀ r : Nibble,
    (stepF r).1.getLsbD 3 = (r.getLsbD 0 ^^ r.getLsbD 1) ∧ (stepF r).1.getLsbD 2 = r.getLsbD 3 ∧
      (stepF r).1.getLsbD 1 = r.getLsbD 2 ∧ (stepF r).1.getLsbD 0 = r.getLsbD 1 := by
  decide

/-- The first n output bits of a Run from a register value, in call order. -/
def outputs : Nat → Nibble → List Bool
  | 0, _ => []
  | n + 1, r => r.getLsbD 0 :: outputs n (stepF r).1

/-- The loop of a Run: n Steps are left to do when RUNCNT is 15 - n. -/
theorem runLoop_eq (n : Nat) (e : Engine) (out : List Bool) (h : e.runcnt.toNat + n = 15) :
    runLoop (n + 1) e out =
      (out ++ outputs n e.r,
        { e with
          r := regAfter n e.r
          sc := e.sc + BitVec.ofNat 8 n
          ob := (outputs n e.r).getLastD e.ob
          runcnt := 15 }) := by
  induction n generalizing e out with
  | zero =>
    have hc : e.runcnt.toNat = Config.nstep := by simpa [Config.nstep] using h
    have hb : e.runcnt = 15 := BitVec.eq_of_toNat_eq hc
    simp only [runLoop, if_pos hc, outputs, regAfter, List.append_nil, List.getLastD_nil, BitVec.ofNat_eq_ofNat,
      BitVec.add_zero]
    rw [← BitVec.ofNat_eq_ofNat, ← hb]
  | succ n ih =>
    have hc : e.runcnt.toNat ≠ Config.nstep := by
      simp only [Config.nstep]
      omega
    have hn : (runTick e).runcnt.toNat + n = 15 := by
      have : (runTick e).runcnt.toNat = (e.runcnt.toNat + 1) % 16 := rfl
      omega
    have hsc : e.sc + 1 + BitVec.ofNat 8 n = e.sc + BitVec.ofNat 8 (n + 1) := by
      rw [BitVec.add_assoc, BitVec.ofNat_add, BitVec.add_comm (BitVec.ofNat 8 n)]
      rfl
    have hob : (outputs n (stepF e.r).1).getLastD (e.r.getLsbD 0) = (outputs (n + 1) e.r).getLastD e.ob := by
      rw [outputs, List.getLastD_cons]
    rw [runLoop, if_neg hc, ih _ _ hn]
    simp only [runTick, engineStep_r, engineStep_ob, engineStep_sc, hsc, hob, outputs, regAfter, List.append_assoc,
      List.cons_append, List.nil_append]
    rfl

/-- Run15 (R112), whole: 15 Steps from wherever the engine stands. -/
theorem run15_eq :
    run15 e =
      { e with
        r := regAfter 15 e.r
        sc := e.sc + 15
        ob := (outputs 15 e.r).getLastD e.ob
        seg := packSeg (outputs 15 e.r)
        runcnt := 0 } := by
  have h := runLoop_eq 15 { e with runcnt := 0 } [] rfl
  simp only [run15, Config.nstep]
  rw [h]
  rfl

/-- 15 Steps bring every register value back (R116). -/
theorem regAfter_fifteen : ∀ r : Nibble, regAfter 15 r = r := by decide +kernel

/-- SEG[14 - j] is output bit j (R112). -/
theorem packSeg_outputs : ∀ (r : Nibble) (j : Fin 15), (packSeg (outputs 15 r)).getLsbD (14 - j.val) = outputBit r j.val := by
  decide +kernel

/-- The last output bit (R112). -/
theorem outputs_last : ∀ (r : Nibble) (b : Bool), (outputs 15 r).getLastD b = outputBit r 14 := by
  decide +kernel

@[simp] theorem run15_r : (run15 e).r = e.r := by rw [run15_eq]; exact regAfter_fifteen e.r
@[simp] theorem run15_sc : (run15 e).sc = e.sc + 15 := by rw [run15_eq]
@[simp] theorem run15_ob : (run15 e).ob = outputBit e.r 14 := by rw [run15_eq]; exact outputs_last e.r e.ob
@[simp] theorem run15_sz : (run15 e).sz = e.sz := by rw [run15_eq]
@[simp] theorem run15_runcnt : (run15 e).runcnt = 0 := by rw [run15_eq]
theorem run15_seg : (run15 e).seg = packSeg (outputs 15 e.r) := by rw [run15_eq]

/-- Bit j of the segment that Run15 leaves in SEG (R112). -/
theorem run15_seg_bit {j : Nat} (h : j < 15) : (run15 e).seg.getLsbD (14 - j) = outputBit e.r j := by
  rw [run15_seg]
  exact packSeg_outputs e.r ⟨j, h⟩

end Sys2Proof.Machine
end

