-- ==== Sys2Proof/Laws/Memory.lean ====
section
/-! SUPPORT. The laws of the storage arrays: read after write, and that a write keeps the canonical form and the array's size. -/

namespace Sys2Proof.Machine

variable {α : Type}

/-- Reading any entry after a write: the written value there, the old entry elsewhere. -/
theorem cellRead_cellWrite (m : List (Nat × α)) (i k : Nat) (x : α) :
    cellRead (cellWrite m i x) k = if k = i then some x else cellRead m k := by
  induction m with
  | nil => simp [cellWrite, cellRead, eq_comm]
  | cons c m ih =>
    obtain ⟨j, v⟩ := c
    simp only [cellWrite]
    split_ifs <;> simp only [cellRead, ih] <;> split_ifs <;> first | rfl | omega

@[simp] theorem cellRead_cellWrite_same (m : List (Nat × α)) (i : Nat) (x : α) :
    cellRead (cellWrite m i x) i = some x := by simp [cellRead_cellWrite]

theorem cellRead_cellWrite_other (m : List (Nat × α)) {i k : Nat} (x : α) (h : k ≠ i) :
    cellRead (cellWrite m i x) k = cellRead m k := by simp [cellRead_cellWrite, h]

/-- Every entry of the array after a write is the written one or an old one. -/
theorem mem_cellWrite {m : List (Nat × α)} {i : Nat} {x : α} {c : Nat × α} (h : c ∈ cellWrite m i x) :
    c = (i, x) ∨ c ∈ m := by
  induction m with
  | nil => simpa [cellWrite] using h
  | cons b m ih =>
    simp only [cellWrite] at h
    split_ifs at h
    · simpa using h
    · rcases List.mem_cons.1 h with h | h
      · exact .inl h
      · exact .inr (List.mem_cons_of_mem _ h)
    · rcases List.mem_cons.1 h with h | h
      · exact .inr (h ▸ List.mem_cons_self)
      · exact (ih h).imp_right (List.mem_cons_of_mem _)

/-- A write keeps the canonical form. -/
theorem cellWrite_rising {m : List (Nat × α)} (i : Nat) (x : α) (h : cellsRising m) : cellsRising (cellWrite m i x) := by
  induction m with
  | nil => simp [cellWrite, cellsRising]
  | cons b m ih =>
    have hb := List.pairwise_cons.1 h
    simp only [cellWrite]
    split_ifs with h1 h2
    · refine List.pairwise_cons.2 ⟨fun c hc => ?_, h⟩
      rcases List.mem_cons.1 hc with rfl | hc
      · exact h1
      · exact h1.trans (hb.1 c hc)
    · exact List.pairwise_cons.2 ⟨fun c hc => h2 ▸ hb.1 c hc, hb.2⟩
    · refine List.pairwise_cons.2 ⟨fun c hc => ?_, ih hb.2⟩
      rcases mem_cellWrite hc with rfl | hc
      · show b.1 < i
        omega
      · exact hb.1 c hc

/-- A write inside the array keeps every entry inside it. -/
theorem cellWrite_below {m : List (Nat × α)} {n i : Nat} (x : α) (hi : i < n) (h : cellsBelow n m) :
    cellsBelow n (cellWrite m i x) := fun _ hc => (mem_cellWrite hc).elim (fun e => e ▸ hi) (h _)

/-- Two arrays in canonical form that read alike at every index are equal. -/
theorem cells_ext {m m' : List (Nat × α)} (h : cellsRising m) (h' : cellsRising m')
    (e : ∀ k, cellRead m k = cellRead m' k) : m = m' := by
  have below : ∀ (l : List (Nat × α)) (k : Nat), (∀ c ∈ l, k < c.1) → cellRead l k = none := by
    intro l k hl
    induction l with
    | nil => rfl
    | cons c l ih =>
      have := hl c List.mem_cons_self
      simp only [cellRead]
      rw [if_neg (by omega)]
      exact ih fun c hc => hl c (List.mem_cons_of_mem _ hc)
  induction m generalizing m' with
  | nil =>
    cases m' with
    | nil => rfl
    | cons c m' => simpa [cellRead] using e c.1
  | cons b m ih =>
    cases m' with
    | nil => simpa [cellRead] using e b.1
    | cons c m' =>
      have hb := List.pairwise_cons.1 h
      have hc := List.pairwise_cons.1 h'
      have hkey : b.1 = c.1 := by
        rcases Nat.lt_trichotomy b.1 c.1 with hlt | heq | hgt
        · have hn := below (c :: m') b.1 fun d hd => by
            rcases List.mem_cons.1 hd with rfl | hd
            · exact hlt
            · exact hlt.trans (hc.1 d hd)
          have := e b.1
          rw [hn] at this
          simp [cellRead] at this
        · exact heq
        · have hn := below (b :: m) c.1 fun d hd => by
            rcases List.mem_cons.1 hd with rfl | hd
            · exact hgt
            · exact hgt.trans (hb.1 d hd)
          have := e c.1
          rw [hn] at this
          simp [cellRead] at this
      have hval : b.2 = c.2 := by
        have := e b.1
        simp only [cellRead, if_pos hkey.symm] at this
        simpa using this
      have htail : m = m' := by
        refine ih hb.2 hc.2 fun k => ?_
        by_cases hk : b.1 = k
        · subst hk
          rw [below m _ hb.1, below m' _ (by simpa [hkey] using hc.1)]
        · have hk' : c.1 ≠ k := fun h' => hk (hkey.trans h')
          have := e k
          rwa [cellRead, if_neg hk, cellRead, if_neg hk'] at this
      rw [htail, Prod.ext hkey hval]

variable (q : Sequencer)

@[simp] theorem dbufWrite_seq (k : Nat) (d : Nibble) : (dbufWrite q k d).seq = q.seq := rfl
@[simp] theorem dbufWrite_dcnt (k : Nat) (d : Nibble) : (dbufWrite q k d).dcnt = q.dcnt := rfl
@[simp] theorem dbufWrite_len (k : Nat) (d : Nibble) : (dbufWrite q k d).len = q.len := rfl
@[simp] theorem dbufWrite_rp (k : Nat) (d : Nibble) : (dbufWrite q k d).rp = q.rp := rfl
@[simp] theorem dbufWrite_digitIdx (k : Nat) (d : Nibble) : (dbufWrite q k d).digitIdx = q.digitIdx := rfl
@[simp] theorem dbufWrite_dbuf (k : Nat) (d : Nibble) : (dbufWrite q k d).dbuf = cellWrite q.dbuf k d := rfl
@[simp] theorem dbufWrite_agg (k : Nat) (d : Nibble) : (dbufWrite q k d).agg = q.agg := rfl

@[simp] theorem aggWrite_seq (i : Nat) (b : Bool) : (aggWrite q i b).seq = q.seq := rfl
@[simp] theorem aggWrite_dcnt (i : Nat) (b : Bool) : (aggWrite q i b).dcnt = q.dcnt := rfl
@[simp] theorem aggWrite_len (i : Nat) (b : Bool) : (aggWrite q i b).len = q.len := rfl
@[simp] theorem aggWrite_rp (i : Nat) (b : Bool) : (aggWrite q i b).rp = q.rp := rfl
@[simp] theorem aggWrite_digitIdx (i : Nat) (b : Bool) : (aggWrite q i b).digitIdx = q.digitIdx := rfl
@[simp] theorem aggWrite_dbuf (i : Nat) (b : Bool) : (aggWrite q i b).dbuf = q.dbuf := rfl
@[simp] theorem aggWrite_agg (i : Nat) (b : Bool) : (aggWrite q i b).agg = cellWrite q.agg i b := rfl

/-- DBUF read after a DBUF write. -/
theorem dbufRead_dbufWrite (k j : Nat) (d : Nibble) :
    dbufRead (dbufWrite q k d) j = if j = k then d else dbufRead q j := by
  simp only [dbufRead, dbufWrite_dbuf, cellRead_cellWrite]
  split_ifs <;> rfl

/-- AGG read after an AGG write. -/
theorem aggRead_aggWrite (i j : Nat) (b : Bool) :
    aggRead (aggWrite q i b) j = if j = i then b else aggRead q j := by
  simp only [aggRead, aggWrite_agg, cellRead_cellWrite]
  split_ifs <;> rfl

@[simp] theorem aggRead_dbufWrite (k i : Nat) (d : Nibble) : aggRead (dbufWrite q k d) i = aggRead q i := rfl
@[simp] theorem dbufRead_aggWrite (i k : Nat) (b : Bool) : dbufRead (aggWrite q i b) k = dbufRead q k := rfl

end Sys2Proof.Machine
end

