-- ==== Sys2Proof/Laws/Aggregator.lean ====
section
/-! SUPPORT. What seeding a digit, appending a segment and GO's loop do, each said once. -/

namespace Sys2Proof.Machine

open Sys2Proof.Safety

section Seed

variable (d : Nibble) (s : State)

@[simp] theorem seedDigit_romq : (seedDigit d s).romq = rom d := rfl
@[simp] theorem seedDigit_engine : (seedDigit d s).engine = initEngine (rom d) (startZero (rom d)) s.engine := rfl
@[simp] theorem seedDigit_sequencer : (seedDigit d s).sequencer = s.sequencer := rfl
@[simp] theorem seedDigit_errors : (seedDigit d s).errors = s.errors := rfl
@[simp] theorem seedDigit_host : (seedDigit d s).host = s.host := rfl
@[simp] theorem seedDigit_capacity : (seedDigit d s).capacity = s.capacity := rfl

/-- The ROM gives each digit's binary representation (R100). -/
theorem rom_digit (h : d.toNat < 10) : rom d = d := by
  have hd : ∀ d : Nibble, d.toNat < 10 → rom d = d := by decide
  exact hd d h

/-- The engine that a digit's Initialize and Run15 leave; it depends on the code alone (R32, R119, R120). -/
def seededRun (c : Nibble) : Engine where
  r := c
  sc := if startZero c then 0x0F else 0x10
  sz := startZero c
  ob := outputBit c 14
  seg := packSeg (outputs 15 c)
  runcnt := 0

theorem run15_initEngine (c : Nibble) (e : Engine) : run15 (initEngine c (startZero c) e) = seededRun c := by
  rw [run15_eq]
  simp only [seededRun, initEngine_r, initEngine_sc, initEngine_sz, initEngine_ob, outputs_last, regAfter_fifteen]
  cases startZero c <;> rfl

/-- Bit j of the segment of a digit's run (R112). -/
theorem seededRun_seg_bit (c : Nibble) {j : Nat} (h : j < 15) : (seededRun c).seg.getLsbD (14 - j) = outputBit c j :=
  packSeg_outputs c ⟨j, h⟩

end Seed

section Append

theorem cellRead_foldl_cellWrite (b : Nat) (f : Nat → Bool) (js : List Nat) (m : List (Nat × Bool)) (i : Nat) :
    cellRead (js.foldl (fun m j => cellWrite m (b + j) (f j)) m) i =
      if b ≤ i ∧ i - b ∈ js then some (f (i - b)) else cellRead m i := by
  induction js generalizing m with
  | nil => simp
  | cons j js ih =>
    simp only [List.foldl_cons, ih, cellRead_cellWrite, List.mem_cons]
    by_cases h1 : b ≤ i ∧ i - b ∈ js
    · rw [if_pos h1, if_pos ⟨h1.1, .inr h1.2⟩]
    · rw [if_neg h1]
      by_cases h2 : i = b + j
      · rw [if_pos h2, if_pos ⟨by omega, .inl (by omega)⟩, h2, Nat.add_sub_cancel_left]
      · rw [if_neg h2, if_neg]
        rintro ⟨hb, hj | hj⟩
        · omega
        · exact h1 ⟨hb, hj⟩

variable (q : Sequencer) (k : Nat) (seg : BitVec 15)

@[simp] theorem appendSegment_seq : (appendSegment k seg q).seq = q.seq := rfl
@[simp] theorem appendSegment_dcnt : (appendSegment k seg q).dcnt = q.dcnt := rfl
@[simp] theorem appendSegment_len : (appendSegment k seg q).len = q.len := rfl
@[simp] theorem appendSegment_rp : (appendSegment k seg q).rp = q.rp := rfl
@[simp] theorem appendSegment_digitIdx : (appendSegment k seg q).digitIdx = q.digitIdx := rfl
@[simp] theorem appendSegment_dbuf : (appendSegment k seg q).dbuf = q.dbuf := rfl
theorem appendSegment_agg : (appendSegment k seg q).agg = writeSegment k seg q.agg := by simp only [appendSegment]

/-- AGG after a segment is written: SEG[14 - j] at 1 + 15·k + j, every other entry as before (R133). -/
theorem cellRead_writeSegment (m : List (Nat × Bool)) (i : Nat) :
    cellRead (writeSegment k seg m) i =
      if 1 + 15 * k ≤ i ∧ i < 1 + 15 * k + 15 then some (seg.getLsbD (14 - (i - (1 + 15 * k)))) else cellRead m i := by
  have h := cellRead_foldl_cellWrite (1 + 15 * k) (fun j => seg.getLsbD (14 - j)) (List.range Config.nstep) m i
  rw [writeSegment]
  rw [h]
  simp only [List.mem_range, Config.nstep]
  congr 1
  exact propext ⟨fun h => ⟨h.1, by omega⟩, fun h => ⟨h.1, by omega⟩⟩

theorem foldl_cellWrite_rising (b : Nat) (f : Nat → Bool) (js : List Nat) (m : List (Nat × Bool)) (h : cellsRising m) :
    cellsRising (js.foldl (fun m j => cellWrite m (b + j) (f j)) m) := by
  induction js generalizing m with
  | nil => exact h
  | cons j js ih =>
    rw [List.foldl_cons]
    exact ih _ (cellWrite_rising _ _ h)

theorem foldl_cellWrite_below (n b : Nat) (f : Nat → Bool) (js : List Nat) (hjs : ∀ j ∈ js, b + j < n)
    (m : List (Nat × Bool)) (h : cellsBelow n m) :
    cellsBelow n (js.foldl (fun m j => cellWrite m (b + j) (f j)) m) := by
  induction js generalizing m with
  | nil => exact h
  | cons j js ih =>
    rw [List.foldl_cons]
    exact ih (fun j hj => hjs j (List.mem_cons_of_mem _ hj)) _ (cellWrite_below _ (hjs j List.mem_cons_self) h)

/-- Writing a segment keeps the canonical form. -/
theorem writeSegment_rising {m : List (Nat × Bool)} (h : cellsRising m) : cellsRising (writeSegment k seg m) :=
  foldl_cellWrite_rising (1 + 15 * k) (fun j => seg.getLsbD (14 - j)) (List.range Config.nstep) m h

/-- Writing a segment that fits writes only inside AGG. -/
theorem writeSegment_below {m : List (Nat × Bool)} {n : Nat} (hk : 1 + 15 * k + 15 ≤ n) (h : cellsBelow n m) :
    cellsBelow n (writeSegment k seg m) := by
  refine foldl_cellWrite_below n (1 + 15 * k) (fun j => seg.getLsbD (14 - j)) (List.range Config.nstep) (fun j hj => ?_) m h
  have := List.mem_range.1 hj
  simp only [Config.nstep] at this
  omega

end Append

section Loop

variable (s : State)

/-- One digit of the loop, field by field. -/
theorem goDigit_eq :
    goDigit s =
      { s with
        engine := seededRun (rom (dbufRead s.sequencer s.sequencer.digitIdx.toNat))
        romq := rom (dbufRead s.sequencer s.sequencer.digitIdx.toNat)
        sequencer :=
          { appendSegment s.sequencer.digitIdx.toNat
              (seededRun (rom (dbufRead s.sequencer s.sequencer.digitIdx.toNat))).seg s.sequencer with
            digitIdx := s.sequencer.digitIdx + 1 } } := by
  simp only [goDigit, seedDigit, run15_initEngine]

@[simp] theorem goDigit_errors : (goDigit s).errors = s.errors := by rw [goDigit_eq]
@[simp] theorem goDigit_host : (goDigit s).host = s.host := by rw [goDigit_eq]
@[simp] theorem goDigit_capacity : (goDigit s).capacity = s.capacity := by rw [goDigit_eq]
@[simp] theorem goDigit_seq : (goDigit s).sequencer.seq = s.sequencer.seq := by rw [goDigit_eq, appendSegment_seq]
@[simp] theorem goDigit_dcnt : (goDigit s).sequencer.dcnt = s.sequencer.dcnt := by rw [goDigit_eq, appendSegment_dcnt]
@[simp] theorem goDigit_len : (goDigit s).sequencer.len = s.sequencer.len := by rw [goDigit_eq, appendSegment_len]
@[simp] theorem goDigit_rp : (goDigit s).sequencer.rp = s.sequencer.rp := by rw [goDigit_eq, appendSegment_rp]
@[simp] theorem goDigit_dbuf : (goDigit s).sequencer.dbuf = s.sequencer.dbuf := by rw [goDigit_eq, appendSegment_dbuf]
@[simp] theorem goDigit_digitIdx : (goDigit s).sequencer.digitIdx = s.sequencer.digitIdx + 1 := by rw [goDigit_eq]
theorem goDigit_romq : (goDigit s).romq = rom (dbufRead s.sequencer s.sequencer.digitIdx.toNat) := by rw [goDigit_eq]
theorem goDigit_engine :
    (goDigit s).engine = seededRun (rom (dbufRead s.sequencer s.sequencer.digitIdx.toNat)) := by rw [goDigit_eq]
theorem goDigit_agg_eq :
    (goDigit s).sequencer.agg =
      writeSegment s.sequencer.digitIdx.toNat (seededRun (rom (dbufRead s.sequencer s.sequencer.digitIdx.toNat))).seg
        s.sequencer.agg := by rw [goDigit_eq, appendSegment_agg]

theorem goDigit_digitIdx_toNat (h : s.sequencer.digitIdx.toNat + 1 < 65536) :
    (goDigit s).sequencer.digitIdx.toNat = s.sequencer.digitIdx.toNat + 1 := by
  rw [goDigit_digitIdx, BitVec.toNat_add]
  exact Nat.mod_eq_of_lt h

theorem goDigit_dbufRead (j : Nat) : dbufRead (goDigit s).sequencer j = dbufRead s.sequencer j := by
  simp only [dbufRead, goDigit_dbuf]

/-- One digit's segment lands in AGG at its place, and nothing else changes there (R54). -/
theorem goDigit_agg (i : Nat) :
    cellRead (goDigit s).sequencer.agg i =
      if 1 + 15 * s.sequencer.digitIdx.toNat ≤ i ∧ i < 1 + 15 * s.sequencer.digitIdx.toNat + 15 then
        some (outputBit (rom (dbufRead s.sequencer s.sequencer.digitIdx.toNat)) (i - (1 + 15 * s.sequencer.digitIdx.toNat)))
      else cellRead s.sequencer.agg i := by
  rw [goDigit_agg_eq, cellRead_writeSegment]
  split_ifs with h
  · rw [seededRun_seg_bit _ (by omega)]
  · rfl

theorem goLoop_const (n : Nat) :
    (goLoop n s).errors = s.errors ∧ (goLoop n s).host = s.host ∧ (goLoop n s).capacity = s.capacity ∧
      (goLoop n s).sequencer.seq = s.sequencer.seq ∧ (goLoop n s).sequencer.dcnt = s.sequencer.dcnt ∧
      (goLoop n s).sequencer.len = s.sequencer.len ∧ (goLoop n s).sequencer.rp = s.sequencer.rp ∧
      (goLoop n s).sequencer.dbuf = s.sequencer.dbuf := by
  induction n generalizing s with
  | zero => exact ⟨rfl, rfl, rfl, rfl, rfl, rfl, rfl, rfl⟩
  | succ n ih => simpa [goLoop] using ih (goDigit s)

/-- AGG after n digits of the loop from digit index k: the n segments at their places, every other entry as before (R54). -/
theorem goLoop_agg (n : Nat) (hk : s.sequencer.digitIdx.toNat + n < 65536) (i : Nat) :
    cellRead (goLoop n s).sequencer.agg i =
      if 1 + 15 * s.sequencer.digitIdx.toNat ≤ i ∧ i < 1 + 15 * (s.sequencer.digitIdx.toNat + n) then
        some (outputBit (rom (dbufRead s.sequencer ((i - 1) / 15))) ((i - 1) % 15))
      else cellRead s.sequencer.agg i := by
  induction n generalizing s with
  | zero =>
    rw [if_neg (by omega)]
    rfl
  | succ n ih =>
    have hidx := goDigit_digitIdx_toNat s (by omega)
    rw [goLoop, ih _ (by omega), hidx, goDigit_dbufRead, goDigit_agg]
    by_cases h1 : 1 + 15 * (s.sequencer.digitIdx.toNat + 1) ≤ i ∧ i < 1 + 15 * (s.sequencer.digitIdx.toNat + 1 + n)
    · rw [if_pos h1, if_pos (by omega)]
    · rw [if_neg h1]
      by_cases h2 : 1 + 15 * s.sequencer.digitIdx.toNat ≤ i ∧ i < 1 + 15 * s.sequencer.digitIdx.toNat + 15
      · rw [if_pos h2, if_pos (by omega)]
        have e1 : (i - 1) / 15 = s.sequencer.digitIdx.toNat := by omega
        have e2 : (i - 1) % 15 = i - (1 + 15 * s.sequencer.digitIdx.toNat) := by omega
        rw [e1, e2]
      · rw [if_neg h2, if_neg (by omega)]

theorem goLoop_digitIdx (n : Nat) : (goLoop n s).sequencer.digitIdx = s.sequencer.digitIdx + BitVec.ofNat 16 n := by
  induction n generalizing s with
  | zero => simp [goLoop]
  | succ n ih =>
    rw [goLoop, ih, goDigit_digitIdx, BitVec.add_assoc, BitVec.ofNat_add, BitVec.add_comm (BitVec.ofNat 16 n)]
    rfl

/-- The engine and ROMQ after n + 1 digits are those of the last one (R32, D20). -/
theorem goLoop_engine (n : Nat) (hk : s.sequencer.digitIdx.toNat + n < 65536) :
    (goLoop (n + 1) s).engine = seededRun (rom (dbufRead s.sequencer (s.sequencer.digitIdx.toNat + n))) ∧
      (goLoop (n + 1) s).romq = rom (dbufRead s.sequencer (s.sequencer.digitIdx.toNat + n)) := by
  induction n generalizing s with
  | zero => exact ⟨goDigit_engine s, goDigit_romq s⟩
  | succ n ih =>
    have hidx := goDigit_digitIdx_toNat s (by omega)
    have := ih (goDigit s) (by omega)
    rw [hidx, goDigit_dbufRead] at this
    rw [goLoop, show s.sequencer.digitIdx.toNat + (n + 1) = s.sequencer.digitIdx.toNat + 1 + n by omega]
    exact this

theorem goLoop_rising (n : Nat) (h : cellsRising s.sequencer.agg) : cellsRising (goLoop n s).sequencer.agg := by
  induction n generalizing s with
  | zero => exact h
  | succ n ih => exact ih _ (goDigit_agg_eq s ▸ writeSegment_rising _ _ h)

theorem goLoop_below (n : Nat) {b : Nat} (hk : 1 + 15 * (s.sequencer.digitIdx.toNat + n) ≤ b) (hb : b ≤ 65536)
    (h : cellsBelow b s.sequencer.agg) : cellsBelow b (goLoop n s).sequencer.agg := by
  induction n generalizing s with
  | zero => exact h
  | succ n ih =>
    have hidx := goDigit_digitIdx_toNat s (by omega)
    exact ih _ (by omega) (goDigit_agg_eq s ▸ writeSegment_below _ _ (by omega) h)

/-- GO's loop over all stored digits (R133, R54): what it leaves in AGG. -/
theorem goDigits_agg (i : Nat) :
    cellRead (goDigits s).sequencer.agg i =
      if 1 ≤ i ∧ i < 1 + 15 * s.sequencer.dcnt.toNat then
        some (outputBit (rom (dbufRead s.sequencer ((i - 1) / 15))) ((i - 1) % 15))
      else cellRead s.sequencer.agg i := by
  have hn := s.sequencer.dcnt.isLt
  have h0 : (0 : Word).toNat = 0 := rfl
  rw [goDigits, goLoop_agg _ _ (by simpa [h0] using hn)]
  simp only [h0, Nat.mul_zero, Nat.add_zero, Nat.zero_add]
  rfl

/-- What GO's loop leaves alone. -/
theorem goDigits_const :
    (goDigits s).errors = s.errors ∧ (goDigits s).host = s.host ∧ (goDigits s).capacity = s.capacity ∧
      (goDigits s).sequencer.seq = s.sequencer.seq ∧ (goDigits s).sequencer.dcnt = s.sequencer.dcnt ∧
      (goDigits s).sequencer.len = s.sequencer.len ∧ (goDigits s).sequencer.rp = s.sequencer.rp ∧
      (goDigits s).sequencer.dbuf = s.sequencer.dbuf :=
  goLoop_const _ _

/-- With no digit stored GO's loop does nothing to the engine and ROMQ (R133). -/
theorem goDigits_none (h : s.sequencer.dcnt = 0) : (goDigits s).engine = s.engine ∧ (goDigits s).romq = s.romq := by
  rw [goDigits, h]
  exact ⟨rfl, rfl⟩

/-- With a digit stored, GO's loop leaves the engine and ROMQ of the last one (R133, D20). -/
theorem goDigits_some (h : s.sequencer.dcnt ≠ 0) :
    (goDigits s).engine = seededRun (rom (dbufRead s.sequencer (s.sequencer.dcnt.toNat - 1))) ∧
      (goDigits s).romq = rom (dbufRead s.sequencer (s.sequencer.dcnt.toNat - 1)) := by
  have hn := s.sequencer.dcnt.isLt
  have hpos : s.sequencer.dcnt.toNat ≠ 0 := fun h0 => h (BitVec.eq_of_toNat_eq h0)
  obtain ⟨n, hd⟩ := Nat.exists_eq_succ_of_ne_zero hpos
  have := goLoop_engine { s with sequencer := { s.sequencer with digitIdx := 0 } } n
    (by show (0 : Word).toNat + n < 65536; have : (0 : Word).toNat = 0 := rfl; omega)
  rw [goDigits, hd]
  simpa [dbufRead] using this

/-- GO's loop keeps the canonical form of AGG. -/
theorem goDigits_rising (h : cellsRising s.sequencer.agg) : cellsRising (goDigits s).sequencer.agg := goLoop_rising _ _ h

/-- GO's loop writes only inside AGG when DCNT ≤ MAXD (R50). -/
theorem goDigits_below (hd : s.sequencer.dcnt.toNat ≤ s.maxd) (h : cellsBelow (1 + 15 * s.maxd) s.sequencer.agg) :
    cellsBelow (1 + 15 * s.maxd) (goDigits s).sequencer.agg := by
  have hm := maxd_bounds s
  refine goLoop_below _ _ ?_ (by omega) h
  show 1 + 15 * ((0 : Word).toNat + _) ≤ _
  have : (0 : Word).toNat = 0 := rfl
  omega

end Loop

end Sys2Proof.Machine
end

