-- ==== Sys2Proof/Laws/Decode.lean ====
section
/-! SUPPORT. The decoder by the fields of R70: opcode and operand taken apart, so that no proof has to look at the table again. -/

namespace Sys2Proof

/-- Every word is an opcode and an operand (R70). -/
theorem word_split (w : Word) : ∃ (op : BitVec 4) (x : BitVec 12), w = op ++ x := by
  refine ⟨w.extractLsb' 12 4, w.extractLsb' 0 12, ?_⟩
  apply BitVec.eq_of_toNat_eq
  have h := w.isLt
  simp only [BitVec.toNat_append, BitVec.extractLsb'_toNat, Nat.shiftRight_zero]
  rw [Nat.shiftLeft_eq, Nat.shiftRight_eq_div_pow, Nat.mul_comm, ← Nat.two_pow_add_eq_or_of_lt (Nat.mod_lt _ (by decide))]
  omega

/-- Two concatenations of the same widths agree exactly when their parts do. -/
theorem append_eq_iff {m n : Nat} (a b : BitVec m) (x y : BitVec n) : a ++ x = b ++ y ↔ a = b ∧ x = y := by
  refine ⟨fun h => ⟨?_, ?_⟩, fun ⟨ha, hx⟩ => by rw [ha, hx]⟩
  · simpa only [BitVec.extractLsb'_append_eq_left] using congrArg (BitVec.extractLsb' n m) h
  · simpa only [BitVec.extractLsb'_append_eq_right] using congrArg (BitVec.extractLsb' 0 n) h

/-- A row whose mask pins the opcode matches exactly when the opcode is its own and the reserved operand bits are 0. -/
theorem masked_eq_iff (op k : BitVec 4) (x m : BitVec 12) :
    (op ++ x : Word) &&& (0xF#4 ++ m) = k ++ 0#12 ↔ op = k ∧ x &&& m = 0 := by
  rw [BitVec.and_append, append_eq_iff, show (0xF#4 : BitVec 4) = BitVec.allOnes 4 from rfl, BitVec.and_allOnes]
  rfl

/-- Reserved bits above an operand field: they are 0 exactly when their part of the word is. -/
theorem reserved_eq_zero_iff {m n : Nat} (x : BitVec m) (d : BitVec n) :
    (x ++ d) &&& (BitVec.allOnes m ++ 0#n) = 0#(m + n) ↔ x = 0#m := by
  rw [BitVec.and_append, BitVec.and_allOnes, BitVec.and_zero, show 0#(m + n) = 0#m ++ 0#n by simp, append_eq_iff]
  simp

/-- The opcode of a mnemonic's row, and the reserved bits of its layout (R70, R72). -/
theorem row_matches (op : BitVec 4) (x : BitVec 12) (k : BitVec 4) (m : BitVec 12) (n : Mnemonic)
    (hp : (rowOf n).pattern = k ++ 0#12) (hm : (rowOf n).mask = 0xF#4 ++ m) :
    (rowOf n).matches (op ++ x) = decide (op = k ∧ x &&& m = 0) := by
  rw [Row.matches, hp, hm, Bool.eq_iff_iff, beq_iff_eq, decide_eq_true_iff]
  exact masked_eq_iff op k x m

/-- A bit of the operand field, read in the word. -/
theorem getLsbD_operand (op : BitVec 4) (x : BitVec 12) {i : Nat} (h : i < 12) : (op ++ x : Word).getLsbD i = x.getLsbD i := by
  have := BitVec.getLsbD_append (x := op) (y := x) (i := i)
  simpa [h] using this

/-- An operand that ends at bit 0, read in the word. -/
theorem extract_operand {n : Nat} (op : BitVec 4) (x : BitVec 12) (h : n ≤ 12) :
    (op ++ x : Word).extractLsb' 0 n = x.extractLsb' 0 n := by
  apply BitVec.eq_of_getLsbD_eq
  intro i hi
  simp only [BitVec.getLsbD_extractLsb', hi, decide_true, Bool.true_and, Nat.zero_add]
  exact getLsbD_operand op x (by omega)

/-- The decoder, by opcode and operand (R70 to R73). -/
theorem decode_append (op : BitVec 4) (x : BitVec 12) :
    decode (op ++ x) =
      match op.toNat with
      | 0x0 => if x &&& 0xFFF#12 = 0 then some .nop else none
      | 0x1 => if x &&& 0xFF0#12 = 0 then some (.enc (x.extractLsb' 0 4)) else none
      | 0x2 => if x &&& 0xFF0#12 = 0 then some (.seed (x.extractLsb' 0 4)) else none
      | 0x3 => if x &&& 0xFE0#12 = 0 then some (.init (x.extractLsb' 0 4) (x.getLsbD 4)) else none
      | 0x4 => if x &&& 0xFFF#12 = 0 then some .step else none
      | 0x5 => if x &&& 0xFFF#12 = 0 then some .run else none
      | 0x6 => if x &&& 0xFFF#12 = 0 then some .begin else none
      | 0x7 => if x &&& 0xF00#12 = 0 then some (.push (x.extractLsb' 0 8)) else none
      | 0x8 => if x &&& 0xFFF#12 = 0 then some .go else none
      | 0x9 => if x &&& 0xFFF#12 = 0 then some .rdbit else none
      | 0xA => if x &&& 0xFF8#12 = 0 then some (.rdreg (Reg.ofNumber (x.extractLsb' 0 3))) else none
      | _ => none := by
  have hbit : (op ++ x : Word).getLsbD 4 = x.getLsbD 4 := getLsbD_operand op x (by decide)
  simp only [decode, opcodeTable, List.map_cons, List.map_nil, List.find?_cons, List.find?_nil,
    row_matches op x 0x0#4 0xFFF#12 .nop rfl rfl, row_matches op x 0x1#4 0xFF0#12 .enc rfl rfl,
    row_matches op x 0x2#4 0xFF0#12 .seed rfl rfl, row_matches op x 0x3#4 0xFE0#12 .init rfl rfl,
    row_matches op x 0x4#4 0xFFF#12 .step rfl rfl, row_matches op x 0x5#4 0xFFF#12 .run rfl rfl,
    row_matches op x 0x6#4 0xFFF#12 .begin rfl rfl, row_matches op x 0x7#4 0xF00#12 .push rfl rfl,
    row_matches op x 0x8#4 0xFFF#12 .go rfl rfl, row_matches op x 0x9#4 0xFFF#12 .rdbit rfl rfl,
    row_matches op x 0xA#4 0xFF8#12 .rdreg rfl rfl]
  obtain ⟨k, rfl⟩ : ∃ k : Fin 16, op = BitVec.ofFin k := ⟨op.toFin, rfl⟩
  fin_cases k <;> simp [rowOf, readOperands, extract_operand] <;> split_ifs <;> simp_all

end Sys2Proof
end

