-- ==== Sys2Proof/Laws/Meaning.lean ====
section
/-! SUPPORT. Everything a command can do, said once: which error it raises, which buffer entry it would need that does not exist,
and otherwise the state it leaves. -/

namespace Sys2Proof.Machine

open Sys2Proof.Safety

/-- The error a legal command raises, if any (R169). -/
def errorOf (i : Instr) (s : State) : Option ErrorKind :=
  match i with
  | .enc d => if isDigitValue d then none else some .badarg
  | .seed d => if isDigitValue d then none else some .badarg
  | .push ch =>
    if s.sequencer.seq ≠ .loading then some .seqerr
    else if isDigitChar ch = false then some .invalidDigit
    else if s.sequencer.dcnt.toNat = s.maxd then some .ovf
    else none
  | .go => if s.sequencer.seq ≠ .loading then some .seqerr else none
  | .rdbit =>
    if s.sequencer.seq ≠ .done then some .seqerr
    else if s.sequencer.rp = s.sequencer.len then some .eor
    else none
  | _ => none

/-- The buffer entry a command with no error would need that does not exist, if any (R50). -/
def faultOf (i : Instr) (s : State) : Option Fault :=
  match i with
  | .push _ => if s.sequencer.dcnt.toNat < s.maxd then none else some .dbufIndex
  | .go => if s.sequencer.dcnt.toNat ≤ s.maxd then none else some .dbufIndex
  | .rdbit => if s.sequencer.rp.toNat ≤ 15 * s.maxd then none else some .aggIndex
  | _ => none

/-- The state a command leaves when it succeeds. -/
def effectOf (i : Instr) (s : State) : State :=
  match i with
  | .nop => respond 0 s
  | .enc d => respond ((rom d).setWidth 16) { s with romq := rom d }
  | .seed d => respond (lfsrView (seedDigit d s).engine) (seedDigit d s)
  | .init seed szb => respond (lfsrView (initEngine seed szb s.engine)) { s with engine := initEngine seed szb s.engine }
  | .step => respond (bitWord (engineStep s.engine).ob) { s with engine := engineStep s.engine }
  | .run => respond ((run15 s.engine).seg.setWidth 16) { s with engine := run15 s.engine }
  | .begin => respond 0 { s with sequencer := openInvocation s.sequencer, errors := clearedErrors }
  | .push ch =>
    respond (storeDigit (digitOfChar ch) s.sequencer).dcnt { s with sequencer := storeDigit (digitOfChar ch) s.sequencer }
  | .go =>
    respond (closeInvocation (goDigits s).sequencer).len
      { goDigits s with sequencer := closeInvocation (goDigits s).sequencer }
  | .rdbit =>
    respond (bitWord (aggRead s.sequencer s.sequencer.rp.toNat))
      { s with sequencer := { s.sequencer with rp := s.sequencer.rp + 1 } }
  | .rdreg n => respond (registerView n s) s

/-- The whole of `exec`: the error outcome, else a missing buffer entry, else the effect. -/
theorem exec_eq (i : Instr) (s : State) :
    exec i s =
      match errorOf i s, faultOf i s with
      | some e, _ => .next (raiseError e (encode i) s)
      | none, some f => .fault f
      | none, none => .next (effectOf i s) := by
  cases i <;>
    simp only [exec, execNop, execEnc, execSeed, execInit, execStep, execRun, execBegin, execPush, execGo, execRdbit, execRdreg,
      errorOf, faultOf, effectOf] <;>
    split_ifs <;> rfl

/-- If a command answers a next state, it raised its error or had its effect. -/
theorem exec_next_cases {i : Instr} {s t : State} (h : exec i s = .next t) :
    (∃ e, errorOf i s = some e ∧ t = raiseError e (encode i) s) ∨
      (errorOf i s = none ∧ faultOf i s = none ∧ t = effectOf i s) := by
  rw [exec_eq] at h
  rcases he : errorOf i s with _ | e <;> rcases hf : faultOf i s with _ | f <;> simp only [he, hf] at h
  · exact .inr ⟨rfl, rfl, by simpa using h.symm⟩
  · cases h
  · exact .inl ⟨e, rfl, by simpa using h.symm⟩
  · exact .inl ⟨e, rfl, by simpa using h.symm⟩

/-- A command is never refused. -/
theorem exec_not_refused (i : Instr) (s : State) (x : Refusal) : exec i s ≠ .refused x := by
  rw [exec_eq]
  split <;> simp

/-- A command that raises an error completes with the error outcome. -/
theorem exec_of_error {i : Instr} {s : State} {e : ErrorKind} (h : errorOf i s = some e) :
    exec i s = .next (raiseError e (encode i) s) := by
  rw [exec_eq, h]

/-- A command with no error whose buffer entry exists completes with its effect. -/
theorem exec_of_effect {i : Instr} {s : State} (h : errorOf i s = none) (hf : faultOf i s = none) :
    exec i s = .next (effectOf i s) := by
  rw [exec_eq, h, hf]

/-- The error operation has exactly the effect of R162. -/
theorem raiseError_rejectedAs (e : ErrorKind) (w : Word) (s : State) : RejectedAs e w s (raiseError e w s) := by
  cases e <;> constructor <;> simp [recordError, setErrorFlag, errorCode, errorFatal, raiseError]

/-- Answering from a state that kept the host's side and the capacity. -/
theorem respond_answered (d : Word) {s t : State} (hh : t.host = s.host) (hc : t.capacity = s.capacity) :
    Answered d s (respond d t) :=
  ⟨respond_rsp t d, respond_inFlight t d, by rw [respond_inputs, hh], by rw [respond_capacity, hc]⟩

/-- A command that has its effect is answered with success. -/
theorem effectOf_answered (i : Instr) (s : State) : ∃ d, Answered d s (effectOf i s) := by
  cases i with
  | go => exact ⟨_, respond_answered _ (goDigits_const s).2.1 (goDigits_const s).2.2.1⟩
  | _ => exact ⟨_, respond_answered _ rfl rfl⟩

/-- A command that has its effect leaves the error record alone, unless it is BEGIN (R30, R171). -/
theorem effectOf_errors {i : Instr} (s : State) (h : i ≠ .begin) : (effectOf i s).errors = s.errors := by
  cases i with
  | go => exact (goDigits_const s).1
  | begin => exact absurd rfl h
  | _ => simp only [effectOf, respond_errors, seedDigit_errors]

/-- MAXD is written by nothing (R20). -/
theorem effectOf_maxd (i : Instr) (s : State) : (effectOf i s).maxd = s.maxd := by
  obtain ⟨d, h⟩ := effectOf_answered i s
  rw [State.maxd, h.capacity, State.maxd]

/-- The commands that are no sequencer commands leave the sequencer and both buffers alone (R104, R118, R151, R152). -/
theorem effectOf_sequencer {i : Instr} (s : State) (hb : i ≠ .begin) (hp : ∀ ch, i ≠ .push ch) (hg : i ≠ .go)
    (hr : i ≠ .rdbit) : (effectOf i s).sequencer = s.sequencer := by
  cases i with
  | begin => exact absurd rfl hb
  | push ch => exact absurd rfl (hp ch)
  | go => exact absurd rfl hg
  | rdbit => exact absurd rfl hr
  | _ => simp only [effectOf, respond_sequencer, seedDigit_sequencer]

/-- RUN's effect, field by field. -/
theorem effectOf_run_engine (s : State) : (effectOf .run s).engine = run15 s.engine := by simp only [effectOf, respond_engine]
theorem effectOf_run_romq (s : State) : (effectOf .run s).romq = s.romq := by simp only [effectOf, respond_romq]
theorem effectOf_run_host (s : State) :
    (effectOf .run s).host =
      { s.host with inFlight := none, rsp := some { ok := true, data := (run15 s.engine).seg.setWidth 16 } } := by
  simp only [effectOf, respond, answer]

/-- GO's effect, field by field. -/
theorem effectOf_go_engine (s : State) : (effectOf .go s).engine = (goDigits s).engine := by simp only [effectOf, respond_engine]
theorem effectOf_go_romq (s : State) : (effectOf .go s).romq = (goDigits s).romq := by simp only [effectOf, respond_romq]
theorem effectOf_go_sequencer (s : State) :
    (effectOf .go s).sequencer = closeInvocation (goDigits s).sequencer := by simp only [effectOf, respond_sequencer]
theorem effectOf_go_host (s : State) :
    (effectOf .go s).host =
      { s.host with
        inFlight := none
        rsp := some { ok := true, data := (closeInvocation (goDigits s).sequencer).len } } := by
  simp only [effectOf, respond, answer, (goDigits_const s).2.1]

/-- The length law (R137): LEN after GO's loop, where MAXD bounds DCNT. -/
theorem closeInvocation_len (s : State) (h : s.sequencer.dcnt.toNat ≤ s.maxd) :
    (closeInvocation (goDigits s).sequencer).len.toNat = 1 + 15 * s.sequencer.dcnt.toNat := by
  have hm := maxd_bounds s
  have h1 : (1 : Word).toNat = 1 := rfl
  have h15 : (15 : Word).toNat = 15 := rfl
  simp only [closeInvocation, (goDigits_const s).2.2.2.2.1, BitVec.toNat_add, BitVec.toNat_mul, h1, h15]
  omega

/-- Performing a legal word is the meaning of the command it decodes to. -/
theorem perform_of_decode {w : Word} {i : Instr} (h : decode w = some i) (s : State) : perform w s = exec i s := by
  simp [perform, h]

theorem perform_of_illegal {w : Word} (h : decode w = none) (s : State) : perform w s = .next (raiseError .ill w s) := by
  simp [perform, h, execIllegal]

/-- One step, by what there is to do. -/
theorem step_cases (s : State) :
    (∃ w, s.host.inFlight = some w ∧ step s = perform w s) ∨
      (s.host.inFlight = none ∧ s.host.inputs = [] ∧ step s = .next (presentNothing s)) ∨
      (∃ rest, s.host.inFlight = none ∧ s.host.inputs = .reset :: rest ∧ step s = .next (applyReset (dropInput s))) ∨
      (∃ w rest, s.host.inFlight = none ∧ s.host.inputs = .command w :: rest ∧
        step s = perform w (accept w (dropInput s))) := by
  rcases hf : s.host.inFlight with _ | w
  · rcases hi : s.host.inputs with _ | ⟨_ | _, rest⟩
    · exact .inr (.inl ⟨rfl, rfl, by simp [step, fetch, hf, hi]⟩)
    · exact .inr (.inr (.inr ⟨_, _, rfl, rfl, by simp [step, fetch, hf, hi]⟩))
    · exact .inr (.inr (.inl ⟨_, rfl, rfl, by simp [step, fetch, hf, hi]⟩))
  · exact .inl ⟨w, rfl, by simp [step, fetch, hf]⟩

/-- The run of a list of words, one word at a time. -/
theorem runWords_cons_next {w : Word} {ws : List Word} {s t : State} {a : Response} (h : perform w s = .next t)
    (ha : t.host.rsp = some a) : runWords (w :: ws) s = (a :: (runWords ws t).1, (runWords ws t).2) := by
  simp [runWords, h, ha]

/-- A run of two lists of words, where the first goes on to its end. -/
theorem runWords_append {xs : List Word} (ys : List Word) {s t : State} {rs : List Response}
    (h : runWords xs s = (rs, .next t)) : runWords (xs ++ ys) s = (rs ++ (runWords ys t).1, (runWords ys t).2) := by
  induction xs generalizing s rs with
  | nil =>
    have h1 : [] = rs := congrArg Prod.fst h
    have h2 : Host.Outcome.next s = Host.Outcome.next t := congrArg Prod.snd h
    cases h1
    cases h2
    rfl
  | cons x xs ih =>
    rw [List.cons_append, runWords]
    rw [runWords] at h
    rcases hp : perform x s with u | f | r
    · simp only [hp] at h ⊢
      obtain ⟨hr, ht⟩ := Prod.mk.inj h
      rw [ih (Prod.ext rfl ht), ← hr, List.append_assoc]
    · simp [hp] at h
    · simp [hp] at h

end Sys2Proof.Machine
end

