-- ==== Sys2Proof/Laws/PerInstr.lean ====
section
/-! SUPPORT. Per command: its word matches its own row of the table (R72, R73). -/

namespace Sys2Proof.Laws.EncodesOnItsRow

/-- The word of a command matches the row of its mnemonic. -/
def Statement (i : Instr) : Prop := (rowOf i.mnemonic).matches (encode i) = true

theorem nop : Statement .nop := rfl
theorem enc (d : Nibble) : Statement (.enc d) := by
  unfold Statement
  revert d
  decide +kernel
theorem seed (d : Nibble) : Statement (.seed d) := by
  unfold Statement
  revert d
  decide +kernel
theorem init (c : Nibble) (z : Bool) : Statement (.init c z) := by
  unfold Statement
  revert c z
  decide +kernel
theorem step : Statement .step := rfl
theorem run : Statement .run := rfl
theorem begin : Statement .begin := rfl
theorem push (ch : BitVec 8) : Statement (.push ch) := by
  unfold Statement
  revert ch
  decide +kernel
theorem go : Statement .go := rfl
theorem rdbit : Statement .rdbit := rfl
theorem rdreg (n : Reg) : Statement (.rdreg n) := by cases n <;> rfl

end Sys2Proof.Laws.EncodesOnItsRow
end

