-- ==== Sys2Proof/Tests/Slice0.lean ====
section
/-! SUPPORT. Our own tests: the checks of WellFormed, decoding by words written out from R70, one-step tests from the spec's own
vectors (95_test_vectors.md), and for every obligation with hypotheses a state and operands that meet them. -/

namespace Sys2Proof.Tests

open Sys2Proof.Machine Sys2Proof.Safety

/- One theorem at a time: each `decide +kernel` waits for every declaration before it, and the waiting threads take memory. -/
set_option Elab.async false

/-! ## WellFormed: one ill-formed term for each check of R77 -/

theorem test_wellFormed_enc : (AsmLine.enc 16).wellFormed = false ∧ (AsmLine.enc 15).wellFormed = true := by decide
theorem test_wellFormed_seed : (AsmLine.seed 16).wellFormed = false ∧ (AsmLine.seed 15).wellFormed = true := by decide
theorem test_wellFormed_init_seed :
    (AsmLine.init (.num 16) 1).wellFormed = false ∧ (AsmLine.init (.num 15) 1).wellFormed = true := by decide
theorem test_wellFormed_init_szb :
    (AsmLine.init (.num 15) 2).wellFormed = false ∧ (AsmLine.init (.bits true true true true) 0).wellFormed = true := by decide
theorem test_wellFormed_push_byte : (AsmLine.push (.byte 256)).wellFormed = false ∧ (AsmLine.push (.byte 255)).wellFormed = true := by
  decide
theorem test_wellFormed_push_quoted :
    (AsmLine.push (.quoted 'é')).wellFormed = false ∧ (AsmLine.push (.quoted '~')).wellFormed = true := by decide
theorem test_wellFormed_rdreg :
    (AsmLine.rdreg (.num 8)).wellFormed = false ∧ (AsmLine.rdreg (.name .eword)).wellFormed = true := by decide
theorem test_wellFormed_encode :
    (AsmLine.encode ['1', 'é']).wellFormed = false ∧ (AsmLine.encode ['1', 'a']).wellFormed = true := by decide
theorem test_wellFormed_readall : (AsmLine.readall 65536).wellFormed = false ∧ (AsmLine.readall 0).wellFormed = true := by decide
theorem test_wellFormed_seedrun : (AsmLine.seedrun 16).wellFormed = false ∧ (AsmLine.seedrun 15).wellFormed = true := by decide
theorem test_assemble_refuses_ill_formed : (AsmLine.seedrun 16).assemble = none := by decide

/-! ## Decoding: for every row of R73 a word written out bit by bit from R70 -/

theorem test_decode_nop : decode 0b0000000000000000#16 = some .nop := by decide
theorem test_decode_enc : decode 0b0001000000000110#16 = some (.enc 0b0110) := by decide
theorem test_decode_seed : decode 0b0010000000001000#16 = some (.seed 0b1000) := by decide
theorem test_decode_init : decode 0b0011000000010011#16 = some (.init 0b0011 true) := by decide
theorem test_decode_step : decode 0b0100000000000000#16 = some .step := by decide
theorem test_decode_run : decode 0b0101000000000000#16 = some .run := by decide
theorem test_decode_begin : decode 0b0110000000000000#16 = some .begin := by decide
theorem test_decode_push : decode 0b0111000010110001#16 = some (.push 0b10110001) := by decide
theorem test_decode_go : decode 0b1000000000000000#16 = some .go := by decide
theorem test_decode_rdbit : decode 0b1001000000000000#16 = some .rdbit := by decide
theorem test_decode_rdreg : decode 0b1010000000000110#16 = some (.rdreg .romq) := by decide
/-- One reserved bit of each layout, and each reserved opcode (R163, section 2.4 of 95_test_vectors.md). -/
theorem test_decode_reserved :
    ([0x0800#16, 0x1010#16, 0x2800#16, 0x3020#16, 0x7130#16, 0xA008#16, 0xB000#16, 0xC000#16, 0xD000#16, 0xE000#16, 0xF000#16,
      0xFFFF#16].all fun w => decode w == none) = true := by
  decide +kernel
/-- No two rows of the table can match one word: where both masks look, the patterns differ (R73). -/
theorem test_rows_disjoint : opcodeTable.Pairwise fun a b => a.mask &&& b.mask &&& (a.pattern ^^^ b.pattern) ≠ 0 := by decide
theorem test_decodeTableWord : decodeTableWord 16 0x7037 = some (.push 0x37) := by decide +kernel

/-! ## States for the tests -/

/-- A block of MAXD = c + 1, open, holding the digits given. -/
def loaded (c : Config.Capacity) (ds : List Nibble) : State :=
  { State.resetWith c [] with
    sequencer :=
      { seq := .loading, dcnt := BitVec.ofNat 16 ds.length, len := 1, rp := 0, digitIdx := 0, dbuf := (List.range ds.length).zip ds,
        agg := [(0, false)] } }

/-- A block of MAXD = 1 that has encoded the digit 3 (95_test_vectors.md section 2.2), with so many bits handed over. -/
def done3 (rp : Word) : State :=
  { State.resetWith 0 [] with
    sequencer :=
      { seq := .done, dcnt := 1, len := 16, rp := rp, digitIdx := 0, dbuf := [(0, 3)]
        agg :=
          [(0, false), (1, true), (2, true), (3, false), (4, false), (5, false), (6, true), (7, false), (8, false), (9, true),
            (10, true), (11, false), (12, true), (13, false), (14, true), (15, true)] } }

/-- A block whose invocation has failed with InvalidDigit. -/
def failed : State := raiseError .invalidDigit 0x7061 (loaded 15 [1])

/-- A block with a command waiting and another word after it. -/
def fed : State := State.resetWith 15 [.command 0x7039, .reset]

/-- A block with the register value given. -/
def withR (r : Nibble) (sc : BitVec 8) : State := { State.reset with engine := { State.reset.engine with r := r, sc := sc } }

/-- The state a word leaves. -/
def after (w : Word) (s : State) : Option State :=
  match perform w s with
  | .next t => some t
  | _ => none

/-- What a word is answered with. -/
def answerTo (w : Word) (s : State) : Option Response := (after w s).bind fun t => t.host.rsp

/-! ## One step, from the vectors of 95_test_vectors.md and the examples of the rules -/

/-- R152. -/
theorem test_nop : answerTo 0x0000#16 failed = some { ok := true, data := 0x0000#16 } := by decide +kernel
/-- X2: ENC 9. -/
theorem test_enc_nine :
    (after 0x1009#16 State.reset).map (fun t => (t.host.rsp, t.romq)) = some (some { ok := true, data := 0x0009#16 }, 0b1001#4) := by
  decide +kernel
/-- Section 2.1: ENC 10 is rejected with BADARG, and ROMQ is unchanged. -/
theorem test_enc_ten :
    (after 0x100A#16 { State.reset with romq := 5 }).map (fun t => (t.host.rsp, t.errors.badarg, t.errors.ecode, t.errors.eword, t.romq)) =
      some (some { ok := false, data := 0x0000#16 }, true, 4#4, 0x100A#16, 5#4) := by
  decide +kernel
/-- X4: SEED 9. -/
theorem test_seed_nine : answerTo 0x2009#16 State.reset = some { ok := true, data := 0x0109#16 } := by decide +kernel
/-- X3: SEED 3. -/
theorem test_seed_three : answerTo 0x2003#16 State.reset = some { ok := true, data := 0x0013#16 } := by decide +kernel
/-- Section 2.2: INIT 0b1111, 1, which no digit gives. -/
theorem test_init_fifteen : answerTo 0x301F#16 State.reset = some { ok := true, data := 0x001F#16 } := by decide +kernel
/-- R113: INIT 0b1001, 0. -/
theorem test_init_nine : answerTo 0x3009#16 (withR 0 0x55) = some { ok := true, data := 0x0109#16 } := by decide +kernel
/-- Section 2.2: STEP from R = 0001 with SC = 0xFF wraps SC. -/
theorem test_step_wraps :
    (after 0x4000#16 (withR 0b0001 0xFF)).map (fun t => (t.host.rsp, t.engine.r, t.engine.sc)) =
      some (some { ok := true, data := 0x0001#16 }, 0b1000#4, 0x00#8) := by
  decide +kernel
/-- Section 2.2: STEP from R = 0010, where the feedback and the output differ. -/
theorem test_step_feedback :
    (after 0x4000#16 (withR 0b0010 0)).map (fun t => (t.engine.r, t.engine.ob)) = some (0b1001#4, false) := by decide +kernel
/-- Section 2.2: RUN from R = 1011 with SC = 0x04. -/
theorem test_run_eleven :
    (after 0x5000#16 (withR 0b1011 0x04)).map (fun t => (t.host.rsp, t.engine.r, t.engine.sc, t.engine.ob)) =
      some (some { ok := true, data := 0x6BC4#16 }, 0b1011#4, 0x13#8, false) := by
  decide +kernel
/-- Section 2.2: the SEG column of RUN from every seed. -/
theorem test_run_segments :
    (List.range 16).map (fun r => answerTo 0x5000#16 (withR (BitVec.ofNat 4 r) 0)) =
      [0x0000#16, 0x44D7#16, 0x26BC#16, 0x626B#16, 0x135E#16, 0x5789#16, 0x35E2#16, 0x7135#16, 0x09AF#16, 0x4D78#16, 0x2F13#16,
          0x6BC4#16, 0x1AF1#16, 0x5E26#16, 0x3C4D#16, 0x789A#16].map
        fun d => some { ok := true, data := d } := by
  decide +kernel
/-- R130: BEGIN opens an invocation and clears the error record. -/
theorem test_begin :
    (after 0x6000#16 failed).map (fun t => (t.host.rsp, t.sequencer.len, t.sequencer.agg, statusWord t.errors t.sequencer.seq)) =
      some (some { ok := true, data := 0x0000#16 }, 1#16, [(0, false)], 0x0001#16) := by
  decide +kernel
/-- R131: PUSH '7'. -/
theorem test_push_seven :
    (after 0x7037#16 (loaded 15 [])).map (fun t => (t.host.rsp, t.sequencer.dbuf)) =
      some (some { ok := true, data := 0x0001#16 }, [(0, 7#4)]) := by
  decide +kernel
/-- Section 2.3: PUSH 'x' with DBUF full raises InvalidDigit, not OVF (R169). -/
theorem test_push_priority :
    (after 0x7078#16 (loaded 1 [1, 2])).map (fun t => (t.sequencer.seq, t.errors.inv, t.errors.ovf, t.errors.ecode)) =
      some (.failed, true, false, 1#4) := by
  decide +kernel
/-- P1: GO over one digit 0. -/
theorem test_go_zero :
    (after 0x8000#16 (loaded 15 [0])).map (fun t => (t.host.rsp, t.sequencer.seq, t.engine.sc, t.sequencer.agg.map Prod.snd)) =
      some (some { ok := true, data := 0x0010#16 }, .done, 0x0F#8, List.replicate 16 false) := by
  decide +kernel
/-- P3: GO over 93: the 31 bits of the result, and the engine as the last digit leaves it. -/
theorem test_go_ninety_three :
    (after 0x8000#16 (loaded 15 [9, 3])).map (fun t => (t.sequencer.agg.map fun c => c.2.toNat, lfsrView t.engine, t.romq)) =
      some
        ([0, 1, 0, 0, 1, 1, 0, 1, 0, 1, 1, 1, 1, 0, 0, 0, 1, 1, 0, 0, 0, 1, 0, 0, 1, 1, 0, 1, 0, 1, 1], 0x0F33#16, 0b0011#4) := by
  decide +kernel
/-- Section 2.3: RDBIT hands over AGG(RP). -/
theorem test_rdbit :
    (after 0x9000#16 (done3 2)).map (fun t => (t.host.rsp, t.sequencer.rp)) =
      some (some { ok := true, data := 0x0001#16 }, 3#16) := by
  decide +kernel
/-- Section 2.3: RDBIT at the end is rejected with EOR. -/
theorem test_rdbit_end :
    (after 0x9000#16 (done3 16)).map (fun t => (t.host.rsp, t.errors.eor, t.errors.ecode, t.sequencer.seq, t.sequencer.rp)) =
      some (some { ok := false, data := 0x0000#16 }, true, 6#4, .done, 16#16) := by
  decide +kernel
/-- P2's last STATUS, 0x0547, from the flags it names. -/
theorem test_rdreg_status :
    answerTo 0xA000#16 { failed with errors := { failed.errors with seqerr := true, ecode := 5 } } =
      some { ok := true, data := 0x0547#16 } := by
  decide +kernel
/-- P4's LFSR view 0x040B. -/
theorem test_rdreg_lfsr : answerTo 0xA001#16 (withR 0b1011 0x04) = some { ok := true, data := 0x040B#16 } := by decide +kernel
/-- P6: the reserved word 0xB000. -/
theorem test_illegal :
    (after 0xB000#16 State.reset).map (fun t => (t.host.rsp, t.errors.ill, t.errors.ecode, t.errors.eword, t.sequencer.seq)) =
      some (some { ok := false, data := 0x0000#16 }, true, 3#4, 0xB000#16, .idle) := by
  decide +kernel
/-- A step on reset with a word placed runs that word. -/
theorem test_step_runs_placed_word :
    (match step (State.reset.withFetchWord 16 0x2009) with
      | .next t => t.host.rsp
      | _ => none) = some { ok := true, data := 0x0109#16 } := by
  decide +kernel
/-- Reset beats a command at the same edge (R180). -/
theorem test_clockEdge_reset :
    (match clockEdge { rst := true, cmdValid := true, cmdWord := 0x6000, finish := true } (accept 0x7031 (loaded 1 [1, 2])) with
      | .next t => t == State.resetWith 1 []
      | _ => false) = true := by
  decide +kernel
/-- READALL and ENCODE as text (R78). -/
theorem test_assembleText_pseudo :
    assembleText 2 "READALL ; the result".toList = some [0xA003#16, 0x9000#16, 0x9000#16] ∧
      assembleText 0 "ENCODE \x221a\x22".toList = some [0x6000#16, 0x7031#16, 0x7061#16, 0x8000#16] ∧
      assembleText 0 "PUSH ';'".toList = some [0x703B#16] ∧ assembleText 0 "; nothing".toList = some [] := by
  decide +kernel

/-- The model's choice of log entry 14: the first double quote ends ENCODE's string; PUSH takes a quote of either kind. -/
theorem test_assembleText_quotes :
    assembleText 0 "ENCODE \x221\x222\x22".toList = none ∧ assembleText 0 "ENCODE \x221".toList = none ∧
      assembleText 0 "ENCODE \x22\x22".toList = some [0x6000#16, 0x8000#16] ∧
      assembleText 0 "PUSH '\x22'".toList = some [0x7022#16] ∧ assembleText 0 "PUSH '\x27'".toList = some [0x7027#16] := by
  decide +kernel

/-! ## The hypotheses of the obligations can be met -/

theorem witness_EncodeDecodeRoundTrip : decode 0x301F#16 = some (.init 15 true) := by decide
theorem witness_LegalExactlyWhenOneRowMatches : decode 0xA007#16 = some (.rdreg .eword) ∧ decode 0xA008#16 = none := by decide
theorem witness_ReservedWordsAreRejected : decode 0xFFFF#16 = none := by decide
theorem witness_PseudoCommandsExpand :
    (∀ c ∈ ['0', '9', 'a', Char.ofNat 127], c.toNat < 128) ∧ 65535 ≤ 65535 ∧ 15 ≤ 15 := by
  refine ⟨fun c hc => ?_, Nat.le_refl _, Nat.le_refl _⟩
  fin_cases hc <;> decide
theorem witness_StepRunsDecodedCommand :
    fed.host.inFlight = none ∧ fed.host.inputs = .command 0x7039#16 :: [.reset] ∧ decode 0x7039#16 = some (.push 0x39) := by
  decide +kernel
theorem witness_StepWithoutNewCommand :
    (accept 0x5000 fed).host.inFlight = some 0x5000#16 ∧
      ((loaded 1 [1]).host.inFlight = none ∧ (loaded 1 [1]).host.inputs = []) ∧
      (dropInput fed).host.inFlight = none ∧ (dropInput fed).host.inputs = .reset :: [] := by
  decide +kernel
theorem witness_ResetGivesResetValues : ({ rst := true, cmdValid := true, cmdWord := 0x6000, finish := false } : EdgeInput).rst = true := rfl
theorem witness_EncLooksUpTheCode : (9#4).toNat < 10 ∧ 10 ≤ (10#4).toNat := by decide
theorem witness_SeedSetsTheEngine : (7#4).toNat < 8 ∧ 8 ≤ (8#4).toNat ∧ (9#4).toNat < 10 ∧ 10 ≤ (15#4).toNat := by decide
theorem witness_NextStateTableAndPeriod :
    (withR 1 0).engine.r ≠ 0 ∧ ([1#4] : List Nibble)[0]? = some (withR 1 0).engine.r ∧ 0 < 15 ∧ 10 + 4 < 15 := by decide
theorem witness_ZeroRegisterIsFixed : State.reset.engine.r = 0b0000#4 := rfl
theorem witness_StepCounterBoundsNothing :
    exec .nop (withR 1 7) = .next (respond 0 (withR 1 7)) ∧ Instr.nop ≠ .step ∧ Instr.nop ≠ .run ∧ Instr.nop ≠ .go ∧
      (∀ d, Instr.nop ≠ .seed d) ∧ (∀ c z, Instr.nop ≠ .init c z) ∧ Instr.nop ≠ .rdreg .lfsr :=
  ⟨rfl, by decide, by decide, by decide, by decide, by decide, by decide⟩
theorem witness_EngineCommandsAreIndependent :
    (∃ c z, Instr.init 3 true = .init c z) ∧ (∃ d, Instr.enc 9 = .enc d ∨ Instr.enc 9 = .seed d) := ⟨⟨_, _, rfl⟩, _, .inl rfl⟩
theorem witness_GoIgnoresEarlierEngine :
    (∃ t, exec .go (loaded 1 [1, 2]) = .next t) ∧ (loaded 1 [1, 2]).sequencer.seq = .loading ∧
      (loaded 1 [1, 2]).sequencer.dcnt ≠ 0 := by
  have h : (match exec .go (loaded 1 [1, 2]) with
      | .next _ => true
      | _ => false) = true := by
    decide +kernel
  refine ⟨?_, by decide, by decide⟩
  generalize exec .go (loaded 1 [1, 2]) = x at h ⊢
  cases x with
  | next t => exact ⟨t, rfl⟩
  | fault x => cases h
  | refused x => cases h
/-- One state or character at the edge of each clause: out of sequence, 0x2F and 0x3A, full, and room for one more. -/
theorem witness_PushStoresADigitOrFails :
    State.reset.sequencer.seq ≠ .loading ∧ (loaded 1 [1]).sequencer.seq = .loading ∧ (0x2F#8).toNat < 0x30 ∧ 0x39 < (0x3A#8).toNat ∧
      0x30 ≤ (0x30#8).toNat ∧ (0x39#8).toNat ≤ 0x39 ∧ (loaded 1 [1, 2]).sequencer.dcnt.toNat = (loaded 1 [1, 2]).maxd ∧
      (loaded 1 [1]).sequencer.dcnt.toNat < (loaded 1 [1]).maxd := by
  decide +kernel
/-- GO out of sequence, with no digit, and with DCNT = MAXD, whose last digit is 2. -/
theorem witness_GoRunsEveryDigit :
    (done3 0).sequencer.seq ≠ .loading ∧ (loaded 1 []).sequencer.dcnt = 0#16 ∧ (loaded 1 [1, 2]).sequencer.seq = .loading ∧
      (loaded 1 [1, 2]).sequencer.dcnt.toNat ≤ (loaded 1 [1, 2]).maxd ∧ (loaded 1 [1, 2]).sequencer.dcnt ≠ 0#16 ∧
      2#4 = rom (dbufRead (loaded 1 [1, 2]).sequencer ((loaded 1 [1, 2]).sequencer.dcnt.toNat - 1)) ∧
      1 < (loaded 1 [1, 2]).sequencer.dcnt.toNat := by
  decide +kernel
/-- RDBIT out of sequence, at the end, and at the last entry of a full AGG. -/
theorem witness_RdbitHandsOverTheNextBit :
    State.reset.sequencer.seq ≠ .done ∧ (done3 16).sequencer.seq = .done ∧ (done3 16).sequencer.rp = (done3 16).sequencer.len ∧
      (done3 15).sequencer.rp ≠ (done3 15).sequencer.len ∧ (done3 15).sequencer.rp.toNat = 15 * (done3 15).maxd := by
  decide +kernel
theorem witness_RejectionIsPrecise :
    perform 0x100A#16 State.reset = .next (raiseError .badarg 0x100A State.reset) ∧
      (raiseError .badarg 0x100A State.reset).host.rsp.map Response.ok = some false ∧
      perform 0xB000#16 State.reset = .next (raiseError .ill 0xB000 State.reset) :=
  ⟨rfl, rfl, rfl⟩
/-- Every error but ILL at a state where nothing before it applies; and a command to which none applies. -/
theorem witness_FirstErrorIsRaised :
    ErrorApplies (.enc 10) State.reset .badarg ∧ ErrorApplies .go State.reset .seqerr ∧
      ErrorApplies (.push 0x3A) (loaded 1 [1]) .invalidDigit ∧ ErrorApplies (.push 0x39) (loaded 1 [1, 2]) .ovf ∧
      ErrorApplies .rdbit (done3 16) .eor ∧ ¬ ErrorApplies .rdbit (done3 16) .seqerr ∧ decode 0xB000#16 = none ∧
      (∀ e, ¬ ErrorApplies .nop State.reset e) ∧ exec .nop State.reset = .next (respond 0 State.reset) := by
  refine ⟨⟨10, .inl rfl, by decide⟩, .inl ⟨.inr rfl, by decide⟩, ⟨_, rfl, by decide⟩, ⟨_, rfl, by decide⟩, ⟨rfl, by decide⟩, ?_,
    by decide, fun e => ?_, rfl⟩
  · simp [ErrorApplies, done3]
  · cases e <;> simp [ErrorApplies]
/-- The states in which the model stops: DCNT past MAXD, and RP past the end of AGG. -/
theorem witness_StopsOnlyOutsideTheBuffers :
    ((loaded 0 [1, 2]).sequencer.seq = .loading ∧ (loaded 0 [1, 2]).maxd < (loaded 0 [1, 2]).sequencer.dcnt.toNat) ∧
      (done3 17).sequencer.seq = .done ∧ (done3 17).sequencer.rp ≠ (done3 17).sequencer.len ∧
      15 * (done3 17).maxd < (done3 17).sequencer.rp.toNat := by
  decide +kernel
theorem witness_EveryCommandIsAnsweredOnce : perform 0x6000#16 State.reset = .next (respond 0 { State.reset with
    sequencer := openInvocation State.reset.sequencer, errors := clearedErrors }) := rfl
theorem witness_ErrorFlagsAreSticky :
    perform 0x0000#16 failed = .next (respond 0 failed) ∧ (0x0000#16 : Word) ≠ 0x6000#16 ∧ failed.errors.inv = true ∧
      failed.sequencer.seq = .failed ∧ (respond 0 failed).host.rsp.map Response.ok = some true ∧
      perform 0x8000#16 failed = .next (raiseError .seqerr 0x8000 failed) ∧
      (raiseError .seqerr 0x8000 failed).host.rsp.map Response.ok = some false :=
  ⟨rfl, by decide, rfl, rfl, rfl, rfl, rfl⟩
theorem witness_StatusFieldsStayLegal :
    failed.errors.ecode.toNat ≤ 6 ∧ step failed = .next (presentNothing failed) ∧
      exec (.rdreg .status) failed = .next (respond (registerView .status failed) failed) :=
  ⟨by decide, rfl, rfl⟩
theorem witness_SeqTransitionTable :
    exec .begin failed = .next (respond 0 { failed with sequencer := openInvocation failed.sequencer, errors := clearedErrors }) ∧
      exec (.push 0x3A) (loaded 1 [1]) = .next (raiseError .invalidDigit (encode (.push 0x3A)) (loaded 1 [1])) ∧
      decode 0xB000#16 = none :=
  ⟨rfl, rfl, by decide⟩

/-- A state in the middle of handing over its result meets R31's invariants. -/
theorem done3_inv : BlockInv (done3 15) where
  dcnt_le := by decide
  rp_le := by decide
  done_len := by decide
  open_len := by decide
  idle_zero := by decide
  ecode_zero := by decide
  digits := by decide

/-- So does an open one with DCNT = MAXD. -/
theorem loaded_inv : BlockInv (loaded 1 [1, 2]) where
  dcnt_le := by decide
  rp_le := by decide
  done_len := by decide
  open_len := by decide
  idle_zero := by decide
  ecode_zero := by decide
  digits := by decide

theorem witness_StepKeepsTheInvariants :
    BlockInv (done3 15) ∧ step (done3 15) = .next (presentNothing (done3 15)) := ⟨done3_inv, rfl⟩
theorem witness_StepKeepsTheBuffersWritten :
    BlockInv (done3 15) ∧ Stored (done3 15) ∧ step (done3 15) = .next (presentNothing (done3 15)) :=
  ⟨done3_inv, ⟨by decide, by decide, by decide⟩, rfl⟩
theorem witness_StepKeepsTheResultLaidOut :
    ResultLaidOut (done3 15) ∧ (done3 15).sequencer.seq = .done ∧ step (done3 15) = .next (presentNothing (done3 15)) := by
  have h : ∀ k, k < (done3 15).sequencer.dcnt.toNat → ∀ j, j < 15 →
      aggRead (done3 15).sequencer (1 + 15 * k + j) = outputBit (rom (dbufRead (done3 15).sequencer k)) j := by
    decide +kernel
  exact ⟨fun _ k j hk hj => h k hk j hj, rfl, rfl⟩
theorem witness_EveryWordHasAnOutcome : BlockInv (loaded 1 [1, 2]) := loaded_inv
theorem witness_EveryRunIsAnswered : BlockInv (done3 15) := done3_inv
/-- The second state differs in a dead entry of each buffer. -/
theorem witness_DeadEntriesAreNeverObserved :
    BlockInv (loaded 1 [1, 2]) ∧
      SameLive (loaded 1 [1, 2])
        { loaded 1 [1, 2] with
          sequencer :=
            { (loaded 1 [1, 2]).sequencer with dbuf := [(0, 1), (1, 2), (2, 9)], agg := [(0, false), (1, true)] } } :=
  ⟨loaded_inv, rfl, by decide, by decide⟩
theorem witness_FailedUntilBegin :
    failed.sequencer.seq = .failed ∧ ∀ w ∈ [0x8000#16, 0x9000#16, 0x7031#16, 0xB000#16], w ≠ 0x6000#16 := by
  refine ⟨rfl, fun w hw => ?_⟩
  fin_cases hw <;> decide
theorem witness_ResultIsHandedOverInOrder :
    BlockInv (loaded 1 [1, 2]) ∧ (loaded 1 [1, 2]).sequencer.seq = .loading ∧ 2 = (loaded 1 [1, 2]).sequencer.dcnt.toNat :=
  ⟨loaded_inv, rfl, rfl⟩
/-- The digits 0 and 9, as many as fit. -/
theorem witness_EncodingYieldsTheKeystream : (∀ d ∈ [0#4, 9#4], d.toNat < 10) ∧ [0#4, 9#4].length ≤ (loaded 1 []).maxd := by decide
/-- The input "1a2" of X9. -/
theorem witness_InvalidInputYieldsNothing : ∃ c ∈ [0x31#8, 0x61#8, 0x32#8], c.toNat < 0x30 ∨ 0x39 < c.toNat := by decide
theorem witness_SeedRunMatchesGo :
    (loaded 1 [1, 9]).sequencer.seq = .loading ∧ (loaded 1 [1, 9]).sequencer.dcnt ≠ 0#16 ∧
      (loaded 1 [1, 9]).sequencer.dcnt.toNat ≤ (loaded 1 [1, 9]).maxd ∧
      dbufRead (loaded 1 [1, 9]).sequencer ((loaded 1 [1, 9]).sequencer.dcnt.toNat - 1) = 9#4 ∧ (9#4).toNat < 10 := by
  decide +kernel
theorem witness_HandshakeRefinesTheCommand : (done3 3).host.inFlight = none := rfl

end Sys2Proof.Tests
end

section
/-! The opcode table as a classifier of words (R73): its rows are disjoint because each pins the opcode to a value of its own, so
finding a row, as the decoder does, and counting rows, as R73 does, come to the same. -/

namespace Sys2Proof

/-- Every mask of the table covers the opcode and every match is 0 below it: a row that matches a word shows the word's opcode. -/
theorem pattern_of_matches {r : Row} (hr : r ∈ opcodeTable) {w : Word} (h : r.matches w) : r.pattern = w &&& 0xF000#16 := by
  have hpins : ∀ r ∈ opcodeTable, r.mask &&& 0xF000#16 = 0xF000#16 ∧ r.pattern &&& 0xF000#16 = r.pattern := by decide
  obtain ⟨hmask, hpattern⟩ := hpins r hr
  calc r.pattern = (w &&& r.mask) &&& 0xF000#16 := by rw [beq_iff_eq.mp h, hpattern]
    _ = w &&& 0xF000#16 := by rw [BitVec.and_assoc, hmask]

theorem opcodeTable_patterns_nodup : (opcodeTable.map Row.pattern).Nodup := by decide

/-- R73: the rows are disjoint. -/
theorem matching_rows_length_le_one (w : Word) : (opcodeTable.filter fun r => r.matches w).length ≤ 1 := by
  rw [← List.countP_eq_length_filter]
  calc opcodeTable.countP (fun r => r.matches w)
      ≤ opcodeTable.countP ((· == w &&& 0xF000#16) ∘ Row.pattern) :=
        List.countP_mono_left fun r hr h => beq_iff_eq.mpr (pattern_of_matches hr h)
    _ = (opcodeTable.map Row.pattern).count (w &&& 0xF000#16) := List.countP_map.symm
    _ ≤ 1 := List.nodup_iff_count_le_one.mp opcodeTable_patterns_nodup _

/-- The decoder, which takes the first row that matches, accepts exactly the words that R73 calls legal. -/
theorem decode_isSome_iff_legal (w : Word) : (decode w).isSome ↔ legal w := by
  have hle := matching_rows_length_le_one w
  have hpos : 0 < (opcodeTable.filter fun r => r.matches w).length ↔ ∃ r ∈ opcodeTable, r.matches w := by
    rw [← List.countP_eq_length_filter, List.countP_pos_iff]
  rw [decode, Option.isSome_map, List.find?_isSome, ← hpos, legal, beq_iff_eq]
  omega

@[simp] theorem mnemonic_readOperands (m : Mnemonic) (w : Word) : (readOperands m w).mnemonic = m := by cases m <;> rfl

/-- What a word decodes to has the mnemonic of a row that matches the word. -/
theorem row_of_decode {w : Word} {i : Instr} (h : decode w = some i) :
    ∃ r ∈ opcodeTable, r.mnemonic = i.mnemonic ∧ r.matches w := by
  obtain ⟨r, hfind, rfl⟩ := Option.map_eq_some_iff.mp h
  exact ⟨r, List.mem_of_find?_eq_some hfind, (mnemonic_readOperands _ w).symm, List.find?_some (p := (Row.matches · w)) hfind⟩

/-- A row as R73 prints it: mnemonic, match, mask. -/
def Row.entry (r : Row) : Mnemonic × Word × Word := (r.mnemonic, r.pattern, r.mask)

/-- The rows that match a word, counted among the printed rows. -/
theorem matching_entries_length (w : Word) :
    ((opcodeTable.map Row.entry).filter fun row => w &&& row.2.2 == row.2.1).length =
      (opcodeTable.filter fun r => r.matches w).length := by
  rw [List.filter_map, List.length_map]
  rfl

end Sys2Proof

open Sys2Proof Sys2Proof.Machine Sys2Proof.Safety in
/-- Settles O3: the rows are disjoint by their opcodes, so the decoder's first matching row is the only one. -/
theorem legalExactlyWhenOneRowMatches : Obligations.LegalExactlyWhenOneRowMatches := by
  unfold Obligations.LegalExactlyWhenOneRowMatches
  intro table w
  have htable : table = opcodeTable.map Row.entry := rfl
  rw [htable, matching_entries_length]
  refine ⟨matching_rows_length_le_one w, ?_, ?_, ?_⟩
  · rw [decode_isSome_iff_legal, legal, beq_iff_eq]
  · intro i h
    obtain ⟨r, hr, hmnemonic, hmatches⟩ := row_of_decode h
    exact ⟨r.entry, List.mem_map_of_mem hr, hmnemonic, beq_iff_eq.mp hmatches⟩
  · intro h s
    exact ⟨_, perform_of_illegal h s, raiseError_rejectedAs .ill w s⟩
end

section
/-! ENC and SEED: the words whose operand is one digit (R70), the BADARG outcome of a digit operand without a ROM entry (R164), and
the LFSR view that an Initialize leaves (R110, R151). -/

namespace Sys2Proof

/-- The operand of a digit word: eight reserved bits above the digit. -/
theorem digit_word_assoc (op : BitVec 4) (x : BitVec 8) (d : Nibble) : (op ++ x ++ d : Word) = op ++ (x ++ d : BitVec 12) :=
  BitVec.append_assoc.trans (BitVec.cast_eq _ _)

theorem digit_word_reserved_eq_zero_iff (x : BitVec 8) (d : Nibble) : (x ++ d : BitVec 12) &&& 0xFF0#12 = 0 ↔ x = 0 :=
  reserved_eq_zero_iff x d

theorem decode_enc_word (x : BitVec 8) (d : Nibble) : decode (0x1#4 ++ x ++ d) = if x = 0 then some (.enc d) else none :=
  calc decode (0x1#4 ++ x ++ d)
      = if (x ++ d : BitVec 12) &&& 0xFF0#12 = 0 then some (.enc ((x ++ d : BitVec 12).extractLsb' 0 4)) else none := by
        rw [digit_word_assoc, decode_append]
        rfl
    _ = if x = 0 then some (.enc d) else none := by
        simp only [digit_word_reserved_eq_zero_iff, BitVec.extractLsb'_append_eq_right]

theorem decode_seed_word (x : BitVec 8) (d : Nibble) : decode (0x2#4 ++ x ++ d) = if x = 0 then some (.seed d) else none :=
  calc decode (0x2#4 ++ x ++ d)
      = if (x ++ d : BitVec 12) &&& 0xFF0#12 = 0 then some (.seed ((x ++ d : BitVec 12).extractLsb' 0 4)) else none := by
        rw [digit_word_assoc, decode_append]
        rfl
    _ = if x = 0 then some (.seed d) else none := by
        simp only [digit_word_reserved_eq_zero_iff, BitVec.extractLsb'_append_eq_right]

theorem encode_enc : ∀ d : Nibble, encode (.enc d) = 0x1#4 ++ 0#8 ++ d := by decide

theorem encode_seed : ∀ d : Nibble, encode (.seed d) = 0x2#4 ++ 0#8 ++ d := by decide

end Sys2Proof

namespace Sys2Proof.Machine

open Sys2Proof.Safety

theorem isDigitValue_iff {d : Nibble} : isDigitValue d = true ↔ d.toNat < 10 := decide_eq_true_iff

/-- StartZero of a code (R101) says that the code is below 8. -/
theorem startZero_eq_decide : ∀ c : Nibble, startZero c = decide (c.toNat < 8) := by decide

/-- The LFSR view after an Initialize, as a number: SC is 0 or 1 by StartZero, OB is the old one, R is the seed (R110, R151). -/
theorem lfsrView_initEngine (c : Nibble) (z : Bool) (e : Engine) :
    lfsrView (initEngine c z e) = BitVec.ofNat 16 ((if z then 0x0010 else 0x0100) + 32 * e.ob.toNat + c.toNat) := by
  have hview : ∀ (c : Nibble) (z b : Bool),
      (if z then 0x00#8 else 0x01#8) ++ 0#2 ++ BitVec.ofBool b ++ BitVec.ofBool z ++ c =
        BitVec.ofNat 16 ((if z then 0x0010 else 0x0100) + 32 * b.toNat + c.toNat) := by decide
  exact hview c z e.ob

/-- A command that raises an error completes with that error's outcome on its own word (R162). -/
theorem exec_rejectedAs {i : Instr} {e : ErrorKind} {w : Word} {s : State} (h : errorOf i s = some e) (hw : encode i = w) :
    ∃ t, exec i s = .next t ∧ RejectedAs e w s t :=
  ⟨_, exec_of_error h, hw ▸ raiseError_rejectedAs e (encode i) s⟩

section DigitOperand

variable {d : Nibble} (s : State)

theorem errorOf_enc_of_digit (h : d.toNat < 10) : errorOf (.enc d) s = none := if_pos (isDigitValue_iff.mpr h)

theorem errorOf_seed_of_digit (h : d.toNat < 10) : errorOf (.seed d) s = none := if_pos (isDigitValue_iff.mpr h)

theorem errorOf_enc_of_not_digit (h : 10 ≤ d.toNat) : errorOf (.enc d) s = some .badarg :=
  if_neg (isDigitValue_iff.not.mpr h.not_gt)

theorem errorOf_seed_of_not_digit (h : 10 ≤ d.toNat) : errorOf (.seed d) s = some .badarg :=
  if_neg (isDigitValue_iff.not.mpr h.not_gt)

/-- ENC of a digit: ROMQ and the response are the digit (R100, R102). -/
theorem effectOf_enc_of_digit (h : d.toNat < 10) : effectOf (.enc d) s = respond (d.setWidth 16) { s with romq := d } := by
  rw [effectOf, rom_digit d h]

/-- SEED of a digit: ROMQ and the seed are the digit, StartZero says that it is below 8 (R100, R101, R103). -/
theorem effectOf_seed_of_digit (h : d.toNat < 10) :
    effectOf (.seed d) s =
      respond (BitVec.ofNat 16 ((if d.toNat < 8 then 0x0010 else 0x0100) + 32 * s.engine.ob.toNat + d.toNat))
        { s with romq := d, engine := initEngine d (decide (d.toNat < 8)) s.engine } := by
  simp only [effectOf, seedDigit, rom_digit d h, startZero_eq_decide, lfsrView_initEngine, decide_eq_true_iff]

end DigitOperand

end Sys2Proof.Machine

open Sys2Proof Sys2Proof.Machine in
/-- Settles O13: ENC has its effect below 10 and raises BADARG from 10 on. -/
theorem encLooksUpTheCode : Obligations.EncLooksUpTheCode := by
  unfold Obligations.EncLooksUpTheCode
  intro d
  refine ⟨fun x => decode_enc_word x d, fun s => ⟨fun h => ?_, fun h => ?_⟩⟩
  · rw [BitVec.ofNat_toNat, BitVec.ofNat_toNat, BitVec.setWidth_eq, exec_of_effect (errorOf_enc_of_digit s h) rfl,
      effectOf_enc_of_digit s h]
    exact ⟨_, rfl, respond_answered _ rfl rfl, rfl, rfl, rfl, rfl⟩
  · exact exec_rejectedAs (errorOf_enc_of_not_digit s h) (encode_enc d)

open Sys2Proof Sys2Proof.Machine in
/-- Settles O14: SEED is the Initialize of its digit below 10 and raises BADARG from 10 on. -/
theorem seedSetsTheEngine : Obligations.SeedSetsTheEngine := by
  unfold Obligations.SeedSetsTheEngine
  intro d
  refine ⟨fun x => decode_seed_word x d, fun s => ⟨fun h => ?_, fun h => ?_⟩⟩
  · rw [exec_of_effect (errorOf_seed_of_digit s h) rfl, effectOf_seed_of_digit s h]
    exact ⟨_, rfl, respond_answered _ rfl rfl, rfl, rfl, rfl, if_congr decide_eq_true_iff rfl rfl, rfl, rfl, rfl, rfl, rfl⟩
  · exact exec_rejectedAs (errorOf_seed_of_not_digit s h) (encode_seed d)
end

section
/-! INIT, STEP and RUN: their words (R70, R113 to R115), and the engine, the response and the rest of the block that each leaves. -/

namespace Sys2Proof

/-- A command with no operand: all twelve bits below the opcode are reserved. -/
theorem operandless_reserved_eq_zero_iff (x : BitVec 12) : x &&& 0xFFF#12 = 0 ↔ x = 0 := by
  rw [show 0xFFF#12 = BitVec.allOnes 12 from rfl, BitVec.and_allOnes]

theorem decode_step_word (x : BitVec 12) : decode (0x4#4 ++ x) = if x = 0 then some .step else none :=
  (decode_append 0x4#4 x).trans (if_congr (operandless_reserved_eq_zero_iff x) rfl rfl)

theorem decode_run_word (x : BitVec 12) : decode (0x5#4 ++ x) = if x = 0 then some .run else none :=
  (decode_append 0x5#4 x).trans (if_congr (operandless_reserved_eq_zero_iff x) rfl rfl)

section InitWord

variable (x : BitVec 7) (z : Bool) (seed : Nibble)

/-- The operand of INIT: seven reserved bits, SZB and the seed (R70). -/
def initOperand : BitVec 12 := (x ++ BitVec.ofBool z : BitVec 8) ++ seed

theorem init_word_eq : (0x3#4 ++ x ++ BitVec.ofBool z ++ seed : Word) = 0x3#4 ++ initOperand x z seed :=
  calc (0x3#4 ++ x ++ BitVec.ofBool z ++ seed : Word)
      = 0x3#4 ++ (x ++ BitVec.ofBool z : BitVec 8) ++ seed :=
        congrArg (· ++ seed) (BitVec.append_assoc.trans (BitVec.cast_eq _ _))
    _ = 0x3#4 ++ initOperand x z seed := digit_word_assoc _ _ _

theorem initOperand_reserved_eq_zero_iff : initOperand x z seed &&& 0xFE0#12 = 0 ↔ x = 0 := by
  have hassoc : initOperand x z seed = x ++ (BitVec.ofBool z ++ seed : BitVec 5) :=
    BitVec.append_assoc.trans (BitVec.cast_eq _ _)
  rw [hassoc]
  exact reserved_eq_zero_iff x (BitVec.ofBool z ++ seed)

theorem initOperand_seed : (initOperand x z seed).extractLsb' 0 4 = seed := BitVec.extractLsb'_append_eq_right

theorem initOperand_szb : (initOperand x z seed).getLsbD 4 = z := by
  rw [initOperand, BitVec.getLsbD_append, BitVec.getLsbD_append]
  simp

theorem decode_init_word :
    decode (0x3#4 ++ x ++ BitVec.ofBool z ++ seed) = if x = 0 then some (.init seed z) else none :=
  calc decode (0x3#4 ++ x ++ BitVec.ofBool z ++ seed)
      = if initOperand x z seed &&& 0xFE0#12 = 0 then
          some (.init ((initOperand x z seed).extractLsb' 0 4) ((initOperand x z seed).getLsbD 4))
        else none := by
        rw [init_word_eq, decode_append]
        rfl
    _ = if x = 0 then some (.init seed z) else none := by
        simp only [initOperand_reserved_eq_zero_iff, initOperand_seed, initOperand_szb]

end InitWord

end Sys2Proof

namespace Sys2Proof.Machine

open Sys2Proof.Safety

/-- `zext_16` of a bit, as a number. -/
theorem bitWord_eq_ofNat (b : Bool) : bitWord b = BitVec.ofNat 16 b.toNat := by cases b <;> rfl

variable (s : State)

/-- INIT, STEP and RUN raise no error and touch no buffer: they complete from every state (R113 to R115, R118). -/
theorem exec_init (c : Nibble) (z : Bool) : exec (.init c z) s = .next (effectOf (.init c z) s) := exec_of_effect rfl rfl
theorem exec_step : exec .step s = .next (effectOf .step s) := exec_of_effect rfl rfl
theorem exec_run : exec .run s = .next (effectOf .run s) := exec_of_effect rfl rfl

theorem effectOf_init_engine (c : Nibble) (z : Bool) : (effectOf (.init c z) s).engine = initEngine c z s.engine := rfl
theorem effectOf_step_engine : (effectOf .step s).engine = engineStep s.engine := rfl
theorem effectOf_step_rsp : (effectOf .step s).host.rsp = some { ok := true, data := bitWord (s.engine.r.getLsbD 0) } := rfl

theorem effectOf_run_rsp :
    (effectOf .run s).host.rsp = some { ok := true, data := (effectOf .run s).engine.seg.setWidth 16 } := by
  rw [effectOf_run_host, effectOf_run_engine]

/-- The zero register under one Step and under a Run (R117). -/
theorem stepF_zero : stepF 0#4 = (0#4, false) := by decide
theorem packSeg_outputs_zero : packSeg (outputs 15 0#4) = 0#15 := by decide

end Sys2Proof.Machine

open Sys2Proof Sys2Proof.Machine in
/-- Settles O15: INIT is Initialize, answered with the LFSR view. -/
theorem initSetsTheEngine : Obligations.InitSetsTheEngine := by
  unfold Obligations.InitSetsTheEngine
  intro seed szb
  refine ⟨fun x => decode_init_word x szb seed, fun s => ⟨_, exec_init s seed szb, ?_, ?_⟩⟩
  · rw [← lfsrView_initEngine]
    exact respond_answered _ rfl rfl
  · exact ⟨rfl, rfl, rfl, rfl, rfl, rfl, rfl, rfl, rfl⟩

open Sys2Proof Sys2Proof.Machine in
/-- Settles O16: STEP is one Step, whose next register R111 gives bit by bit. -/
theorem stepShiftsTheRegister : Obligations.StepShiftsTheRegister := by
  unfold Obligations.StepShiftsTheRegister
  refine ⟨decode_step_word, fun s => ⟨_, exec_step s, ?_, ?_⟩⟩
  · rw [← bitWord_eq_ofNat]
    exact respond_answered _ rfl rfl
  · obtain ⟨h3, h2, h1, h0⟩ := stepF_bits s.engine.r
    exact ⟨h3, h2, h1, h0, rfl, BitVec.toNat_add _ _, rfl, rfl, rfl, rfl, rfl, rfl⟩

open Sys2Proof Sys2Proof.Machine in
/-- Settles O17: RUN is Run15, answered with SEG. -/
theorem runTakesFifteenSteps : Obligations.RunTakesFifteenSteps := by
  unfold Obligations.RunTakesFifteenSteps
  refine ⟨decode_run_word, fun s => ⟨_, exec_run s, ?_, ?_⟩⟩
  · rw [BitVec.ofNat_toNat, effectOf_run_engine]
    exact respond_answered _ rfl rfl
  · rw [effectOf_run_engine, run15_r, regAfter_fifteen, run15_sc]
    exact ⟨fun j hj => run15_seg_bit s.engine hj, rfl, run15_ob s.engine, BitVec.toNat_add _ _, run15_sz s.engine,
      effectOf_run_romq s, effectOf_sequencer s nofun nofun nofun nofun, effectOf_errors s nofun⟩

open Sys2Proof Sys2Proof.Machine in
/-- Settles O20: 0000 is a fixed point of the shift, and each bit it shifts out is 0. -/
theorem zeroRegisterIsFixed : Obligations.ZeroRegisterIsFixed := by
  unfold Obligations.ZeroRegisterIsFixed
  intro s hr
  have hseg : (effectOf .run s).engine.seg = 0#15 := by
    rw [effectOf_run_engine, run15_seg, hr, packSeg_outputs_zero]
  refine ⟨⟨_, exec_step s, ?_, ?_⟩, _, exec_run s, ?_, hseg, ?_⟩
  · rw [effectOf_step_engine, engineStep_r, hr, stepF_zero]
  · rw [effectOf_step_rsp, hr]
    rfl
  · rw [effectOf_run_engine, run15_r, hr]
  · rw [effectOf_run_rsp, hseg]
    rfl
end

section
/-! The sequence of the LFSR (R116): its next-state table, the walk through the nonzero values, and the recurrence of its output bits. -/

namespace Sys2Proof.Safety

open Sys2Proof.Machine

/-- A row of R116's next-state table: the feedback bit, the next register and the output bit. -/
def nextStateRow (r : Nibble) : Bool × Nibble × Bool := (r.getLsbD 0 ^^ r.getLsbD 1, stepF r)

theorem regAfter_add (m n : Nat) (r : Nibble) : regAfter (m + n) r = regAfter n (regAfter m r) := by
  induction m generalizing r with
  | zero => rw [Nat.zero_add, regAfter]
  | succ m ih => rw [Nat.succ_add, regAfter, ih, regAfter]

/-- One Step more, counted around the period of 15. -/
theorem stepF_regAfter_mod_period (r : Nibble) {k : Nat} (hk : k < 15) :
    (stepF (regAfter k r)).1 = regAfter ((k + 1) % 15) r := by
  have hsucc : (stepF (regAfter k r)).1 = regAfter (k + 1) r := (regAfter_add k 1 r).symm
  obtain hlt | heq : k + 1 < 15 ∨ k + 1 = 15 := by omega
  · rw [hsucc, Nat.mod_eq_of_lt hlt]
  · rw [hsucc, heq, regAfter_fifteen, Nat.mod_self, regAfter]

/-- The output bits follow the recurrence of x^4 + x + 1: it holds of the first five bits from every register value, and the bits from
j on are those of a Run that starts from the register after j Steps. -/
theorem outputBit_recurrence (r : Nibble) (j : Nat) : outputBit r (j + 4) = (outputBit r (j + 1) ^^ outputBit r j) := by
  have hfirst : ∀ r : Nibble, (regAfter 4 r).getLsbD 0 = ((regAfter 1 r).getLsbD 0 ^^ r.getLsbD 0) := by decide
  simp only [outputBit, regAfter_add j]
  exact hfirst (regAfter j r)

/-- From a nonzero value, eight of the 15 output bits are 1 and seven are 0. -/
theorem packSeg_outputs_count : ∀ r : Nibble, r ≠ 0 →
    ((List.range 15).filter fun j => (packSeg (outputs 15 r)).getLsbD j).length = 8 ∧
      ((List.range 15).filter fun j => !(packSeg (outputs 15 r)).getLsbD j).length = 7 := by
  decide

end Sys2Proof.Safety

open Sys2Proof Sys2Proof.Machine Sys2Proof.Safety in
/-- Settles O19: the table lists the rows of the 16 values in order, and the cycle lists the register after 0 to 14 Steps from 0001,
to which the fifteenth Step returns. -/
theorem nextStateTableAndPeriod : Obligations.NextStateTableAndPeriod := by
  unfold Obligations.NextStateTableAndPeriod
  intro table cycle
  have htable : table = (List.range 16).map fun n => nextStateRow (BitVec.ofNat 4 n) := by decide
  have hcycle : cycle = (List.range 15).map fun k => regAfter k 0b0001 := by decide
  refine ⟨fun s => ⟨_, exec_step s, ?_⟩, fun s k hk hat => ⟨_, exec_step s, ?_⟩, fun s => ⟨_, exec_run s, ?_⟩⟩
  · have hrow : table[s.engine.r.toNat]? = some (nextStateRow s.engine.r) := by
      rw [htable, List.getElem?_map, List.getElem?_range s.engine.r.isLt, Option.map_some, BitVec.ofNat_toNat,
        BitVec.setWidth_eq]
    exact hrow
  · have hwalk {k : Nat} (hk : k < 15) : cycle[k]? = some (regAfter k 0b0001) := by
      rw [hcycle, List.getElem?_map, List.getElem?_range hk, Option.map_some]
    have hr : s.engine.r = regAfter k 0b0001 := Option.some.inj (hat.symm.trans (hwalk hk))
    rw [effectOf_step_engine, engineStep_r, hr, stepF_regAfter_mod_period _ hk]
    exact hwalk (Nat.mod_lt _ (by decide))
  · rw [effectOf_run_engine, run15_r]
    refine ⟨rfl, fun hne => ?_, fun j hj => ?_⟩
    · rw [run15_seg]
      exact packSeg_outputs_count s.engine.r hne
    · rw [run15_seg_bit _ hj, run15_seg_bit _ (by omega), run15_seg_bit _ (by omega)]
      exact outputBit_recurrence s.engine.r j
end

section
/-! What the engine commands do not depend on: the engine before an Initialize (R120), SC (R119), and the sequencer and the error
record (R104, R118). -/

namespace Sys2Proof.Machine

open Sys2Proof.Safety

/-- Initialize and Run15 together leave nothing of the engine before them (R120). -/
theorem run15_initEngine_congr (c : Nibble) (z : Bool) (e e' : Engine) : run15 (initEngine c z e) = run15 (initEngine c z e') := by
  simp only [run15_eq, initEngine_r, initEngine_sc, initEngine_sz, outputs_last]

/-- SEG after an Initialize and a Run depends on the seed only (R120). -/
theorem run15_initEngine_seg (c : Nibble) (z : Bool) (e : Engine) : (run15 (initEngine c z e)).seg = packSeg (outputs 15 c) := by
  rw [run15_seg, initEngine_r]

/-- The commands without Initialize or Step leave the engine alone (R104, R118, R119). -/
theorem effectOf_engine {i : Instr} (s : State) (hseed : ∀ d, i ≠ .seed d) (hinit : ∀ c z, i ≠ .init c z) (hstep : i ≠ .step)
    (hrun : i ≠ .run) (hgo : i ≠ .go) : (effectOf i s).engine = s.engine := by
  cases i with
  | seed d => exact absurd rfl (hseed d)
  | init c z => exact absurd rfl (hinit c z)
  | step => exact absurd rfl hstep
  | run => exact absurd rfl hrun
  | go => exact absurd rfl hgo
  | _ => simp only [effectOf, respond_engine]

section StepCounter

/-- The state with another SC. -/
def withSc (x : BitVec 8) (s : State) : State := { s with engine := { s.engine with sc := x } }

variable (x : BitVec 8) (s : State)

theorem errorOf_withSc (i : Instr) : errorOf i (withSc x s) = errorOf i s := by cases i <;> rfl

theorem faultOf_withSc (i : Instr) : faultOf i (withSc x s) = faultOf i s := by cases i <;> rfl

theorem withSc_withSc (y : BitVec 8) : withSc y (withSc x s) = withSc y s := rfl

theorem raiseError_withSc (e : ErrorKind) (w : Word) : raiseError e w (withSc x s) = withSc x (raiseError e w s) := rfl

/-- A Run counts on from SC and does nothing else with it (R112, R119). -/
theorem effectOf_run_withSc : effectOf .run (withSc x s) = withSc (x + 15) (effectOf .run s) := by
  simp only [effectOf, run15_eq, withSc, respond, answer]

/-- GO's loop keeps SC when there is no digit and forgets it at the first one (R32, R133). -/
theorem goLoop_withSc (n : Nat) : goLoop n (withSc x s) = withSc x (goLoop n s) ∨ goLoop n (withSc x s) = goLoop n s := by
  cases n with
  | zero => exact .inl rfl
  | succ n =>
    have hdigit : goDigit (withSc x s) = goDigit s := by
      rw [goDigit_eq, goDigit_eq]
      rfl
    rw [goLoop, goLoop, hdigit]
    exact .inr rfl

theorem goDigits_withSc : goDigits (withSc x s) = withSc x (goDigits s) ∨ goDigits (withSc x s) = goDigits s :=
  goLoop_withSc x { s with sequencer := { s.sequencer with digitIdx := 0 } } s.sequencer.dcnt.toNat

theorem effectOf_go_withSc :
    effectOf .go (withSc x s) = withSc x (effectOf .go s) ∨ effectOf .go (withSc x s) = effectOf .go s := by
  rcases goDigits_withSc x s with h | h
  · left
    simp only [effectOf, h]
    simp only [withSc, respond, answer]
  · right
    simp only [effectOf, h]

/-- Whatever SC a command finds, it leaves the same but for SC, unless it reads the LFSR view (R119). -/
theorem effectOf_withSc {i : Instr} (h : i ≠ .rdreg .lfsr) : withSc 0 (effectOf i (withSc x s)) = withSc 0 (effectOf i s) := by
  cases i with
  | run => rw [effectOf_run_withSc, withSc_withSc]
  | go =>
    rcases effectOf_go_withSc x s with hgo | hgo
    · rw [hgo, withSc_withSc]
    · rw [hgo]
  | rdreg n =>
    cases n with
    | lfsr => exact absurd rfl h
    | _ => rfl
  | _ => rfl

theorem exec_withSc {i : Instr} {s t : State} (h : i ≠ .rdreg .lfsr) (ht : exec i s = .next t) :
    ∃ t', exec i (withSc x s) = .next t' ∧ withSc 0 t' = withSc 0 t := by
  rcases exec_next_cases ht with ⟨e, he, rfl⟩ | ⟨he, hf, rfl⟩
  · refine ⟨_, exec_of_error ((errorOf_withSc x s i).trans he), ?_⟩
    rw [raiseError_withSc, withSc_withSc]
  · exact ⟨_, exec_of_effect ((errorOf_withSc x s i).trans he) ((faultOf_withSc x s i).trans hf), effectOf_withSc x s h⟩

end StepCounter

section SequencerAndErrors

/-- The commands of the BCD encoder and of the LFSR engine. -/
def isEngineSide : Instr → Bool
  | .enc _ | .seed _ | .init _ _ | .step | .run => true
  | _ => false

/-- The state with another sequencer and another error record. -/
def withRest (q : Sequencer) (x : ErrorRecord) (s : State) : State := { s with sequencer := q, errors := x }

variable {i : Instr} (h : isEngineSide i = true) (s : State)

include h

/-- Whether an engine-side command is rejected depends on its operand only (R164). -/
theorem errorOf_congr_of_engineSide (s' : State) : errorOf i s = errorOf i s' := by
  cases i with
  | enc d | seed d | init c z | step | run => rfl
  | _ => cases h

/-- BADARG is the one error that an engine-side command can raise (R164). -/
theorem errorOf_of_engineSide : errorOf i s = none ∨ errorOf i s = some .badarg := by
  cases i with
  | enc d | seed d =>
    rw [errorOf]
    split
    · exact .inl rfl
    · exact .inr rfl
  | init c z | step | run => exact .inl rfl
  | _ => cases h

theorem faultOf_of_engineSide : faultOf i s = none := by
  cases i with
  | enc d | seed d | init c z | step | run => rfl
  | _ => cases h

/-- An engine-side command passes the sequencer and the error record by (R104, R118). -/
theorem effectOf_withRest (q : Sequencer) (x : ErrorRecord) : effectOf i (withRest q x s) = withRest q x (effectOf i s) := by
  cases i with
  | enc d | seed d | init c z | step => rfl
  | run => simp only [effectOf, withRest, respond, answer]
  | _ => cases h

theorem effectOf_eq_withRest : effectOf i s = withRest s.sequencer s.errors (effectOf i s) :=
  effectOf_withRest h s s.sequencer s.errors

theorem effectOf_sequencer_of_engineSide : (effectOf i s).sequencer = s.sequencer := by
  rw [effectOf_eq_withRest h s]
  rfl

theorem effectOf_errors_of_engineSide : (effectOf i s).errors = s.errors := by
  rw [effectOf_eq_withRest h s]
  rfl

theorem effectOf_withSequencer (q : Sequencer) : effectOf i { s with sequencer := q } = { effectOf i s with sequencer := q } := by
  have hrest : effectOf i { s with sequencer := q } = withRest q s.errors (effectOf i s) := effectOf_withRest h s q s.errors
  rw [hrest, withRest, ← effectOf_errors_of_engineSide h s]

/-- Every engine-side command completes, with success or BADARG, leaves the sequencer and both buffers as they are, and does not
depend on them (R104, R118). -/
theorem exec_withSequencer_of_engineSide :
    ∃ t, exec i s = .next t ∧ t.sequencer = s.sequencer ∧
      ∀ q : Sequencer, exec i { s with sequencer := q } = .next { t with sequencer := q } := by
  have herr (q : Sequencer) : errorOf i { s with sequencer := q } = errorOf i s := errorOf_congr_of_engineSide h _ _
  rcases errorOf_of_engineSide h s with he | he
  · refine ⟨_, exec_of_effect he (faultOf_of_engineSide h s), effectOf_sequencer_of_engineSide h s, fun q => ?_⟩
    rw [exec_of_effect ((herr q).trans he) (faultOf_of_engineSide h _), effectOf_withSequencer h]
  · exact ⟨_, exec_of_error he, rfl, fun q => exec_of_error ((herr q).trans he)⟩

end SequencerAndErrors

/-- INIT, STEP and RUN complete with success from every state (R118). -/
theorem exec_of_engine_command {i : Instr} (h : (∃ c z, i = .init c z) ∨ i = .step ∨ i = .run) (s : State) :
    exec i s = .next (effectOf i s) := by
  rcases h with ⟨c, z, rfl⟩ | rfl | rfl
  · exact exec_init s c z
  · exact exec_step s
  · exact exec_run s

end Sys2Proof.Machine

open Sys2Proof Sys2Proof.Machine in
/-- Settles O21: Run15 after an Initialize is a function of its operands, and SEG and R are functions of the seed. -/
theorem sameSeedSameSegment : Obligations.SameSeedSameSegment := by
  unfold Obligations.SameSeedSameSegment
  intro s s' seed z z'
  refine ⟨_, _, _, _, exec_init s seed z, exec_run _, exec_init s' seed z', exec_run _, ?_⟩
  simp only [effectOf_run_rsp, effectOf_run_engine, effectOf_init_engine, run15_initEngine_seg, run15_r, initEngine_r, true_and]
  rintro rfl
  rw [run15_initEngine_congr seed z s.engine s'.engine]
  exact ⟨rfl, rfl, rfl⟩

open Sys2Proof Sys2Proof.Machine in
/-- Settles O22: the other commands leave the engine alone, and SC goes nowhere but into the LFSR view. -/
theorem stepCounterBoundsNothing : Obligations.StepCounterBoundsNothing := by
  unfold Obligations.StepCounterBoundsNothing
  refine ⟨fun i s t ht hseed hinit hstep hrun hgo => ?_, fun i s t x h ht => exec_withSc x h ht, fun s c z => ?_⟩
  · rcases exec_next_cases ht with ⟨e, -, rfl⟩ | ⟨-, -, rfl⟩
    · rw [raiseError_engine]
    · rw [effectOf_engine s hseed hinit hstep hrun hgo]
  · refine ⟨_, _, exec_init s c z, exec_run _, ?_⟩
    rw [effectOf_run_engine, run15_sc, effectOf_init_engine, initEngine_sc]
    cases z <;> rfl

open Sys2Proof Sys2Proof.Machine in
/-- Settles O23: the effect of an engine command passes the sequencer and the error record by; ENC and SEED can raise BADARG, which
is not fatal and so leaves the sequencer alone. -/
theorem engineCommandsAreIndependent : Obligations.EngineCommandsAreIndependent := by
  unfold Obligations.EngineCommandsAreIndependent
  refine ⟨fun i s h => ?_, fun i s h => ?_⟩
  · have hside : isEngineSide i = true := by rcases h with ⟨c, z, rfl⟩ | rfl | rfl <;> rfl
    refine ⟨_, exec_of_engine_command h s, effectOf_sequencer_of_engineSide hside s, effectOf_errors_of_engineSide hside s,
      fun q x => ?_⟩
    rw [exec_of_engine_command h]
    exact congrArg Host.Outcome.next (effectOf_withRest hside s q x)
  · have hside : isEngineSide i = true := by rcases h with ⟨d, rfl | rfl⟩ <;> rfl
    exact exec_withSequencer_of_engineSide hside s
end

section
/-! The sequencer's commands as words (R70, R72), and the errors that each can raise (R165, R166, R168). -/

namespace Sys2Proof

theorem decode_begin_word (x : BitVec 12) : decode (0x6#4 ++ x) = if x = 0 then some .begin else none :=
  (decode_append 0x6#4 x).trans (if_congr (operandless_reserved_eq_zero_iff x) rfl rfl)

theorem decode_go_word (x : BitVec 12) : decode (0x8#4 ++ x) = if x = 0 then some .go else none :=
  (decode_append 0x8#4 x).trans (if_congr (operandless_reserved_eq_zero_iff x) rfl rfl)

theorem decode_rdbit_word (x : BitVec 12) : decode (0x9#4 ++ x) = if x = 0 then some .rdbit else none :=
  (decode_append 0x9#4 x).trans (if_congr (operandless_reserved_eq_zero_iff x) rfl rfl)

theorem decode_go : decode 0x8000#16 = some .go := decode_go_word 0

theorem decode_rdbit : decode 0x9000#16 = some .rdbit := decode_rdbit_word 0

/-- The operand of PUSH: four reserved bits above the character. -/
theorem decode_push_word (x : BitVec 4) (ch : BitVec 8) :
    decode (0x7#4 ++ x ++ ch) = if x = 0 then some (.push ch) else none := by
  have hassoc : (0x7#4 ++ x ++ ch : Word) = 0x7#4 ++ (x ++ ch : BitVec 12) := BitVec.append_assoc.trans (BitVec.cast_eq _ _)
  have hreserved : (x ++ ch : BitVec 12) &&& 0xF00#12 = 0 ↔ x = 0 := reserved_eq_zero_iff x ch
  calc decode (0x7#4 ++ x ++ ch)
      = if (x ++ ch : BitVec 12) &&& 0xF00#12 = 0 then some (.push ((x ++ ch : BitVec 12).extractLsb' 0 8)) else none := by
        rw [hassoc, decode_append]
        rfl
    _ = if x = 0 then some (.push ch) else none := by
        simp only [hreserved, BitVec.extractLsb'_append_eq_right]

theorem encode_push (ch : BitVec 8) : encode (.push ch) = 0x70#8 ++ ch := by
  simp only [encode, operandBits, BitVec.append_def]
  rfl

/-- No other word than BEGIN's own stands for BEGIN: its mask covers the whole word (R73). -/
theorem eq_begin_word_of_decode {w : Word} (h : decode w = some .begin) : w = 0x6000#16 := by
  have hrow : ∀ r ∈ opcodeTable, r = rowOf r.mnemonic := by decide
  obtain ⟨r, hr, hmnemonic, hmatches⟩ := row_of_decode h
  rw [hrow r hr, hmnemonic] at hmatches
  calc w = w &&& 0xFFFF#16 := (BitVec.and_allOnes (x := w)).symm
    _ = 0x6000#16 := beq_iff_eq.mp hmatches

end Sys2Proof

namespace Sys2Proof.Machine

theorem isDigitChar_iff {ch : BitVec 8} : isDigitChar ch = true ↔ 0x30 ≤ ch.toNat ∧ ch.toNat ≤ 0x39 := by
  rw [isDigitChar, Bool.and_eq_true, decide_eq_true_iff, decide_eq_true_iff]

section Errors

variable {s : State}

theorem errorOf_push_of_not_loading (ch : BitVec 8) (h : s.sequencer.seq ≠ .loading) :
    errorOf (.push ch) s = some .seqerr := if_pos h

theorem errorOf_push_of_loading (ch : BitVec 8) (h : s.sequencer.seq = .loading) :
    errorOf (.push ch) s =
      if isDigitChar ch = false then some .invalidDigit
      else if s.sequencer.dcnt.toNat = s.maxd then some .ovf
      else none := if_neg (not_not_intro h)

theorem errorOf_go_of_not_loading (h : s.sequencer.seq ≠ .loading) : errorOf .go s = some .seqerr := if_pos h

theorem errorOf_go_of_loading (h : s.sequencer.seq = .loading) : errorOf .go s = none := if_neg (not_not_intro h)

theorem errorOf_rdbit_of_not_done (h : s.sequencer.seq ≠ .done) : errorOf .rdbit s = some .seqerr := if_pos h

theorem errorOf_rdbit_of_done (h : s.sequencer.seq = .done) :
    errorOf .rdbit s = if s.sequencer.rp = s.sequencer.len then some .eor else none := if_neg (not_not_intro h)

end Errors

end Sys2Proof.Machine
end

section
/-! FAILED (R136): the sequencer's commands are out of sequence there, no error changes the state any further, and no other command
writes the sequencer; so only BEGIN leads out. -/

namespace Sys2Proof.Machine

/-- The commands that need an open invocation or a finished one, and that use a buffer. -/
def needsInvocation : Instr → Bool
  | .push _ | .go | .rdbit => true
  | _ => false

theorem errorOf_of_failed {i : Instr} {s : State} (hs : s.sequencer.seq = .failed) (hi : needsInvocation i = true) :
    errorOf i s = some .seqerr := by
  cases i with
  | push ch => exact errorOf_push_of_not_loading ch (hs ▸ nofun)
  | go => exact errorOf_go_of_not_loading (hs ▸ nofun)
  | rdbit => exact errorOf_rdbit_of_not_done (hs ▸ nofun)
  | _ => cases hi

/-- Only these commands use an entry of a buffer that may not exist (R50). -/
theorem faultOf_of_not_needsInvocation {i : Instr} (s : State) (hi : needsInvocation i = false) : faultOf i s = none := by
  cases i with
  | push ch => cases hi
  | go => cases hi
  | rdbit => cases hi
  | _ => rfl

/-- Apart from BEGIN, only these commands write the sequencer. -/
theorem effectOf_sequencer_of_not_needsInvocation {i : Instr} (s : State) (hb : i ≠ .begin) (hi : needsInvocation i = false) :
    (effectOf i s).sequencer = s.sequencer :=
  effectOf_sequencer s hb (by rintro ch rfl; cases hi) (by rintro rfl; cases hi) (by rintro rfl; cases hi)

/-- In FAILED a word other than BEGIN's is answered and leaves the sequencer with both buffers as it is; GO and RDBIT are rejected. -/
theorem perform_of_failed {w : Word} {s : State} (hs : s.sequencer.seq = .failed) (hw : w ≠ 0x6000#16) :
    ∃ t a, perform w s = .next t ∧ t.host.rsp = some a ∧ t.sequencer = s.sequencer ∧
      (w = 0x8000#16 ∨ w = 0x9000#16 → a.ok = false) := by
  cases hd : decode w with
  | none =>
    exact ⟨_, _, perform_of_illegal hd s, raiseError_rsp s w .ill, raiseError_sequencer_of_failed s w .ill hs, fun _ => rfl⟩
  | some i =>
    rw [perform_of_decode hd]
    cases he : errorOf i s with
    | some e =>
      exact ⟨_, _, exec_of_error he, raiseError_rsp s _ e, raiseError_sequencer_of_failed s _ e hs, fun _ => rfl⟩
    | none =>
      have hbegin : i ≠ .begin := by
        rintro rfl
        exact hw (eq_begin_word_of_decode hd)
      have hneeds : needsInvocation i = false := by
        by_contra hne
        cases he.symm.trans (errorOf_of_failed hs (Bool.eq_true_of_not_eq_false hne))
      obtain ⟨d, hans⟩ := effectOf_answered i s
      refine ⟨_, _, exec_of_effect he (faultOf_of_not_needsInvocation s hneeds), hans.response,
        effectOf_sequencer_of_not_needsInvocation s hbegin hneeds, ?_⟩
      rintro (rfl | rfl)
      · cases Option.some.inj (hd.symm.trans decode_go)
        cases hneeds
      · cases Option.some.inj (hd.symm.trans decode_rdbit)
        cases hneeds

end Sys2Proof.Machine

open Sys2Proof Sys2Proof.Machine in
/-- Settles O44, by induction on the words: each one keeps the sequencer, so the next one finds FAILED again. -/
theorem failedUntilBegin : Obligations.FailedUntilBegin := by
  unfold Obligations.FailedUntilBegin
  intro ws
  induction ws with
  | nil => exact fun s _ _ => ⟨[], s, rfl, rfl, rfl, nofun⟩
  | cons w ws ih =>
    intro s hs hws
    rw [List.forall_mem_cons] at hws
    obtain ⟨t, a, hperform, hrsp, hkeep, hreject⟩ := perform_of_failed hs hws.1
    obtain ⟨rs, u, hrun, hlen, hu, hrejects⟩ := ih t (hkeep ▸ hs) hws.2
    refine ⟨a :: rs, u, ?_, congrArg (· + 1) hlen, hu.trans hkeep, ?_⟩
    · rw [runWords_cons_next hperform hrsp, hrun]
    · rw [List.zip_cons_cons, List.forall_mem_cons]
      exact ⟨hreject, hrejects⟩
end

section
/-! BEGIN, PUSH, GO and RDBIT (R130, R131, R133, R134): what each leaves of the sequencer, the buffers and the engine. -/

namespace Sys2Proof.Machine

open Sys2Proof.Safety

theorem aggRead_openInvocation (q : Sequencer) (i : Nat) :
    aggRead (openInvocation q) i = if i = 0 then false else aggRead q i := aggRead_aggWrite _ 0 i false

theorem dbufRead_storeDigit (d : Nibble) (q : Sequencer) (k : Nat) :
    dbufRead (storeDigit d q) k = if k = q.dcnt.toNat then d else dbufRead q k := dbufRead_dbufWrite q _ k d

/-- `digit(ch)` is the distance of the character from 0x30 (R132). -/
theorem digitOfChar_eq_ofNat {ch : BitVec 8} (h : 0x30 ≤ ch.toNat) : digitOfChar ch = BitVec.ofNat 4 (ch.toNat - 0x30) := by
  apply BitVec.eq_of_toNat_eq
  simp only [digitOfChar, BitVec.toNat_setWidth, BitVec.toNat_sub, BitVec.toNat_ofNat]
  omega

/-- Counting one more in a 16-bit register, as a number. -/
theorem word_succ_eq_ofNat (x : Word) : x + 1 = BitVec.ofNat 16 (x.toNat + 1) := by
  rw [BitVec.ofNat_add, BitVec.ofNat_toNat, BitVec.setWidth_eq]
  rfl

theorem word_succ_toNat {x : Word} (h : x.toNat + 1 < 65536) : (x + 1).toNat = x.toNat + 1 :=
  BitVec.toNat_add_of_lt h

/-- PUSH of a digit, with room for it, has its effect. -/
theorem exec_push_of_room {ch : BitVec 8} {s : State} (hs : s.sequencer.seq = .loading) (hch : isDigitChar ch = true)
    (hroom : s.sequencer.dcnt.toNat < s.maxd) : exec (.push ch) s = .next (effectOf (.push ch) s) := by
  refine exec_of_effect ?_ (if_pos hroom)
  rw [errorOf_push_of_loading ch hs, if_neg (ne_false_of_eq_true hch), if_neg hroom.ne]

section Rdbit

variable {s : State}

/-- RDBIT before the end of the result has its effect. -/
theorem exec_rdbit_of_more (hs : s.sequencer.seq = .done) (hrp : s.sequencer.rp ≠ s.sequencer.len)
    (hmax : s.sequencer.rp.toNat ≤ 15 * s.maxd) : exec .rdbit s = .next (effectOf .rdbit s) := by
  refine exec_of_effect ?_ (if_pos hmax)
  rw [errorOf_rdbit_of_done hs, if_neg hrp]

theorem errorOf_rdbit_at_end (hs : s.sequencer.seq = .done) (hrp : s.sequencer.rp = s.sequencer.len) :
    errorOf .rdbit s = some .eor := by
  rw [errorOf_rdbit_of_done hs, if_pos hrp]

theorem effectOf_rdbit_sequencer (s : State) :
    (effectOf .rdbit s).sequencer = { s.sequencer with rp := s.sequencer.rp + 1 } := rfl

end Rdbit

section Go

variable (s : State)

/-- GO over digits that fit has its effect. -/
theorem exec_go_of_loading (hs : s.sequencer.seq = .loading) (hd : s.sequencer.dcnt.toNat ≤ s.maxd) :
    exec .go s = .next (effectOf .go s) := exec_of_effect (errorOf_go_of_loading hs) (if_pos hd)

theorem aggRead_closeInvocation (q : Sequencer) (i : Nat) : aggRead (closeInvocation q) i = aggRead q i := rfl

theorem effectOf_go_seq : (effectOf .go s).sequencer.seq = .done := by rw [effectOf_go_sequencer, closeInvocation]

theorem effectOf_go_rp : (effectOf .go s).sequencer.rp = 0 := by rw [effectOf_go_sequencer, closeInvocation]

theorem effectOf_go_dcnt : (effectOf .go s).sequencer.dcnt = s.sequencer.dcnt := by
  obtain ⟨-, -, -, -, hdcnt, -⟩ := goDigits_const s
  rw [effectOf_go_sequencer, closeInvocation, hdcnt]

theorem effectOf_go_dbuf : (effectOf .go s).sequencer.dbuf = s.sequencer.dbuf := by
  obtain ⟨-, -, -, -, -, -, -, hdbuf⟩ := goDigits_const s
  rw [effectOf_go_sequencer, closeInvocation, hdbuf]

theorem effectOf_go_len_toNat (hd : s.sequencer.dcnt.toNat ≤ s.maxd) :
    (effectOf .go s).sequencer.len.toNat = 1 + 15 * s.sequencer.dcnt.toNat := by
  rw [effectOf_go_sequencer, closeInvocation_len s hd]

/-- GO is answered with LEN (R133), which is 1 + 15·DCNT (R137). -/
theorem effectOf_go_answered (hd : s.sequencer.dcnt.toNat ≤ s.maxd) :
    Answered (BitVec.ofNat 16 (1 + 15 * s.sequencer.dcnt.toNat)) s (effectOf .go s) := by
  obtain ⟨-, hhost, hcapacity, -⟩ := goDigits_const s
  rw [← closeInvocation_len s hd, BitVec.ofNat_toNat, BitVec.setWidth_eq]
  exact respond_answered _ hhost hcapacity

/-- AGG after GO: bit j of segment k is output bit j of digit k's code (R54, R133). -/
theorem aggRead_go_segment {k j : Nat} (hk : k < s.sequencer.dcnt.toNat) (hj : j < 15) :
    aggRead (effectOf .go s).sequencer (1 + 15 * k + j) = outputBit (rom (dbufRead s.sequencer k)) j := by
  have hdigit : (1 + 15 * k + j - 1) / 15 = k := by omega
  have hbit : (1 + 15 * k + j - 1) % 15 = j := by omega
  rw [effectOf_go_sequencer, aggRead_closeInvocation, aggRead, goDigits_agg, if_pos (by omega), hdigit, hbit, Option.getD_some]

/-- AGG after GO, outside the segments (R133). -/
theorem aggRead_go_other {i : Nat} (hi : i = 0 ∨ 1 + 15 * s.sequencer.dcnt.toNat ≤ i) :
    aggRead (effectOf .go s).sequencer i = aggRead s.sequencer i := by
  rw [effectOf_go_sequencer, aggRead_closeInvocation, aggRead, goDigits_agg, if_neg (by omega), aggRead]

/-- With no digit stored GO leaves the engine and ROMQ as they are (R133, D13). -/
theorem effectOf_go_engine_romq_of_no_digit (h : s.sequencer.dcnt = 0) :
    (effectOf .go s).engine = s.engine ∧ (effectOf .go s).romq = s.romq := by
  rw [effectOf_go_engine, effectOf_go_romq]
  exact goDigits_none s h

/-- With a digit stored GO leaves the engine and ROMQ of the last one (R133, D20). -/
theorem effectOf_go_engine_romq_of_digit (h : s.sequencer.dcnt ≠ 0) :
    (effectOf .go s).engine = seededRun (rom (dbufRead s.sequencer (s.sequencer.dcnt.toNat - 1))) ∧
      (effectOf .go s).romq = rom (dbufRead s.sequencer (s.sequencer.dcnt.toNat - 1)) := by
  rw [effectOf_go_engine, effectOf_go_romq]
  exact goDigits_some s h

/-- SC after a digit's SEED and RUN, by the MSB of its code (R101, R110, R112). -/
theorem seededRun_sc (c : Nibble) : (seededRun c).sc = if c.getLsbD 3 then 0x10#8 else 0x0F#8 := by
  have hswap : ∀ b : Bool, (if !b then 0x0F#8 else 0x10#8) = if b then 0x10#8 else 0x0F#8 := by decide
  exact hswap (c.getLsbD 3)

end Go

end Sys2Proof.Machine

open Sys2Proof Sys2Proof.Machine in
/-- Settles O25: BEGIN writes AGG at the sentinel's index only. -/
theorem beginOpensAnInvocation : Obligations.BeginOpensAnInvocation := by
  unfold Obligations.BeginOpensAnInvocation
  refine ⟨decode_begin_word, fun s => ⟨effectOf .begin s, exec_of_effect rfl rfl, respond_answered _ rfl rfl, rfl, rfl, rfl, rfl,
    ?_, fun i hi => ?_, rfl, rfl, rfl, rfl, rfl⟩⟩
  · exact (aggRead_openInvocation s.sequencer 0).trans (if_pos rfl)
  · exact (aggRead_openInvocation s.sequencer i).trans (if_neg hi)

open Sys2Proof Sys2Proof.Machine in
/-- Settles O26: the clauses are the branches of PUSH's errors in their order (R169), and its effect where none applies. -/
theorem pushStoresADigitOrFails : Obligations.PushStoresADigitOrFails := by
  unfold Obligations.PushStoresADigitOrFails
  intro ch
  refine ⟨fun x => decode_push_word x ch, fun s => ⟨fun hs => ?_, fun hs hch => ?_, fun hs hlo hhi hfull => ?_,
    fun hs hlo hhi hroom => ?_⟩⟩
  · exact exec_rejectedAs (errorOf_push_of_not_loading ch hs) (encode_push ch)
  · have hno : isDigitChar ch = false := Bool.eq_false_iff.mpr fun h => by
      have := isDigitChar_iff.mp h
      omega
    refine exec_rejectedAs ?_ (encode_push ch)
    rw [errorOf_push_of_loading ch hs, if_pos hno]
  · have hdigit : isDigitChar ch = true := isDigitChar_iff.mpr ⟨hlo, hhi⟩
    refine exec_rejectedAs ?_ (encode_push ch)
    rw [errorOf_push_of_loading ch hs, if_neg (ne_false_of_eq_true hdigit), if_pos hfull]
  · have hread := dbufRead_storeDigit (digitOfChar ch) s.sequencer
    refine ⟨_, exec_push_of_room hs (isDigitChar_iff.mpr ⟨hlo, hhi⟩) hroom, ?_, ?_, ?_, fun k hk => ?_, rfl, rfl, rfl, rfl⟩
    · rw [← word_succ_eq_ofNat]
      exact respond_answered _ rfl rfl
    · have hmax := maxd_bounds s
      exact word_succ_toNat (by omega)
    · rw [← digitOfChar_eq_ofNat hlo]
      exact (hread _).trans (if_pos rfl)
    · exact (hread k).trans (if_neg hk)

open Sys2Proof Sys2Proof.Machine in
/-- Settles O27: GO's loop writes one segment per digit and leaves the engine of the last one. -/
theorem goRunsEveryDigit : Obligations.GoRunsEveryDigit := by
  unfold Obligations.GoRunsEveryDigit
  refine ⟨decode_go_word, rom_digit, fun s => ⟨fun hs => ?_, fun hs hd => ?_⟩⟩
  · exact exec_rejectedAs (errorOf_go_of_not_loading hs) rfl
  · refine ⟨_, exec_go_of_loading s hs hd, effectOf_go_answered s hd, effectOf_go_seq s, effectOf_go_len_toNat s hd,
      effectOf_go_rp s, effectOf_go_dcnt s, effectOf_go_dbuf s, fun k j => aggRead_go_segment s, fun i => aggRead_go_other s,
      effectOf_errors s nofun, effectOf_go_engine_romq_of_no_digit s, ?_⟩
    rintro c hne rfl
    obtain ⟨hengine, hromq⟩ := effectOf_go_engine_romq_of_digit s hne
    rw [hengine]
    exact ⟨hromq, rfl, rfl, seededRun_sc _, rfl, fun j => seededRun_seg_bit _⟩

open Sys2Proof Sys2Proof.Machine in
/-- Settles O28: RDBIT reads AGG at RP and counts RP. -/
theorem rdbitHandsOverTheNextBit : Obligations.RdbitHandsOverTheNextBit := by
  unfold Obligations.RdbitHandsOverTheNextBit
  refine ⟨decode_rdbit_word, fun s => ⟨fun hs => ?_, fun hs hrp => ?_, fun hs hrp hmax => ?_⟩⟩
  · exact exec_rejectedAs (errorOf_rdbit_of_not_done hs) rfl
  · exact exec_rejectedAs (errorOf_rdbit_at_end hs hrp) rfl
  · refine ⟨_, exec_rdbit_of_more hs hrp hmax, ?_, ?_, rfl, rfl, rfl, rfl⟩
    · rw [← bitWord_eq_ofNat]
      exact respond_answered _ rfl rfl
    · have hbound := maxd_bounds s
      exact word_succ_toNat (by omega)
end

section
/-! Reading the result out (R137, R138): a run of RDBITs hands over AGG from RP on, one entry per word, up to LEN. -/

namespace Sys2Proof.Machine

open Sys2Proof.Safety

/-- The response of RDBIT where RP is i (R134). -/
def bitResponse (q : Sequencer) (i : Nat) : Response := { ok := true, data := bitWord (aggRead q i) }

theorem effectOf_rdbit_rsp (s : State) :
    (effectOf .rdbit s).host.rsp = some (bitResponse s.sequencer s.sequencer.rp.toNat) := rfl

/-- RP has no part in what AGG holds. -/
theorem bitResponse_effectOf_rdbit (s : State) : bitResponse (effectOf .rdbit s).sequencer = bitResponse s.sequencer := rfl

theorem effectOf_rdbit_len (s : State) : (effectOf .rdbit s).sequencer.len = s.sequencer.len := rfl

/-- As many RDBITs as there are bits left succeed, and move RP on by their number. -/
theorem runWords_rdbits {m : Nat} {s : State} (hs : s.sequencer.seq = .done)
    (hm : s.sequencer.rp.toNat + m ≤ s.sequencer.len.toNat) (hlen : s.sequencer.len.toNat ≤ 1 + 15 * s.maxd) :
    ∃ t, runWords (List.replicate m 0x9000#16) s =
        ((List.range' s.sequencer.rp.toNat m).map (bitResponse s.sequencer), .next t) ∧
      t.sequencer = { s.sequencer with rp := BitVec.ofNat 16 (s.sequencer.rp.toNat + m) } := by
  induction m generalizing s with
  | zero =>
    refine ⟨s, rfl, ?_⟩
    rw [Nat.add_zero, BitVec.ofNat_toNat, BitVec.setWidth_eq]
  | succ m ih =>
    have hbound := s.sequencer.len.isLt
    have hrp : (effectOf .rdbit s).sequencer.rp.toNat = s.sequencer.rp.toNat + 1 := word_succ_toNat (by omega)
    have hne : s.sequencer.rp ≠ s.sequencer.len := fun h => by
      rw [h] at hm
      omega
    have hstep : perform 0x9000#16 s = .next (effectOf .rdbit s) := by
      rw [perform_of_decode decode_rdbit, exec_rdbit_of_more hs hne (by omega)]
    obtain ⟨t, hrun, ht⟩ := ih (s := effectOf .rdbit s) hs (by rw [hrp, effectOf_rdbit_len]; omega) hlen
    refine ⟨t, ?_, ?_⟩
    · rw [List.replicate_succ, runWords_cons_next hstep (effectOf_rdbit_rsp s), hrun, hrp, bitResponse_effectOf_rdbit,
        List.range'_succ, List.map_cons]
    · rw [ht, hrp, effectOf_rdbit_sequencer, Nat.add_right_comm, Nat.add_assoc]

/-- GO, then one RDBIT per bit of the result: LEN, then AGG from its first entry to its last; RP is then LEN. -/
theorem runWords_go_rdbits {s : State} (hs : s.sequencer.seq = .loading) (hd : s.sequencer.dcnt.toNat ≤ s.maxd) :
    ∃ t, runWords (0x8000#16 :: List.replicate (1 + 15 * s.sequencer.dcnt.toNat) 0x9000#16) s =
        ({ ok := true, data := BitVec.ofNat 16 (1 + 15 * s.sequencer.dcnt.toNat) } ::
          (List.range' 0 (1 + 15 * s.sequencer.dcnt.toNat)).map (bitResponse (effectOf .go s).sequencer), .next t) ∧
      t.sequencer.seq = .done ∧ t.sequencer.rp = t.sequencer.len := by
  have hlen := effectOf_go_len_toNat s hd
  have hrp : (effectOf .go s).sequencer.rp.toNat = 0 := by rw [effectOf_go_rp]; rfl
  have hgo : perform 0x8000#16 s = .next (effectOf .go s) := by
    rw [perform_of_decode decode_go, exec_go_of_loading s hs hd]
  obtain ⟨t, hrun, ht⟩ := runWords_rdbits (m := 1 + 15 * s.sequencer.dcnt.toNat) (effectOf_go_seq s) (by omega)
    (by rw [effectOf_maxd]; omega)
  rw [hrp] at hrun ht
  refine ⟨t, ?_, ?_, ?_⟩
  · rw [runWords_cons_next hgo (effectOf_go_answered s hd).response, hrun]
  · rw [ht]
    exact effectOf_go_seq s
  · rw [ht, Nat.zero_add, ← hlen, BitVec.ofNat_toNat, BitVec.setWidth_eq]

end Sys2Proof.Machine

open Sys2Proof Sys2Proof.Machine Sys2Proof.Safety in
/-- Settles O45: the RDBITs read AGG in index order, which is the sentinel and then the segments; R31 (d) gives the sentinel and
R31 (g) the digits' codes. -/
theorem resultIsHandedOverInOrder : Obligations.ResultIsHandedOverInOrder := by
  unfold Obligations.ResultIsHandedOverInOrder
  rintro s n hinv hs rfl
  obtain ⟨t, hrun, hdone, hend⟩ := runWords_go_rdbits hs hinv.dcnt_le
  obtain ⟨u, heor, hrejected⟩ := exec_rejectedAs (errorOf_rdbit_at_end hdone hend) (rfl : encode .rdbit = 0x9000#16)
  have hbit {i : Nat} (hi : i < 1 + 15 * s.sequencer.dcnt.toNat) :
      ((List.range' 0 (1 + 15 * s.sequencer.dcnt.toNat)).map (bitResponse (effectOf .go s).sequencer))[i]? =
        some (bitResponse (effectOf .go s).sequencer i) := by
    rw [List.getElem?_map, List.getElem?_range' hi, Option.map_some, Nat.zero_add, Nat.one_mul]
  refine ⟨_, t, u, hrun, ?_, rfl, ?_, fun k j hk hj => ?_, heor, hrejected⟩
  · simp only [List.length_cons, List.length_map, List.length_range']
    omega
  · obtain ⟨-, -, hsentinel⟩ := hinv.open_len (.inl hs)
    rw [List.getElem?_cons_succ, hbit (by omega), bitResponse, aggRead_go_other s (.inl rfl), hsentinel]
    rfl
  · have hindex : 2 + 15 * k + j = 1 + 15 * k + j + 1 := by omega
    rw [hindex, List.getElem?_cons_succ, hbit (by omega), bitResponse, aggRead_go_segment s hk hj,
      rom_digit _ (hinv.digits k hk), bitWord_eq_ofNat]
end

section
/-! NOP and RDREG: their words (R70, R72, R151, R152), the register views as numbers (R26, R151), and the block that they leave
unchanged. -/

namespace Sys2Proof

theorem decode_nop_word (x : BitVec 12) : decode (0x0#4 ++ x) = if x = 0 then some .nop else none :=
  (decode_append 0x0#4 x).trans (if_congr (operandless_reserved_eq_zero_iff x) rfl rfl)

/-- The registers in the order of their numbers (R151). -/
theorem ofNumber_eq_getD : ∀ n : BitVec 3,
    Reg.ofNumber n = [Reg.status, .lfsr, .seg, .len, .dcnt, .rp, .romq, .eword].getD n.toNat .status := by decide

/-- The operand of RDREG: nine reserved bits above the register's number. -/
theorem decode_rdreg_word (x : BitVec 9) (n : BitVec 3) :
    decode (0xA#4 ++ x ++ n) = if x = 0 then some (.rdreg (Reg.ofNumber n)) else none := by
  have hassoc : (0xA#4 ++ x ++ n : Word) = 0xA#4 ++ (x ++ n : BitVec 12) := BitVec.append_assoc.trans (BitVec.cast_eq _ _)
  have hreserved : (x ++ n : BitVec 12) &&& 0xFF8#12 = 0 ↔ x = 0 := reserved_eq_zero_iff x n
  calc decode (0xA#4 ++ x ++ n)
      = if (x ++ n : BitVec 12) &&& 0xFF8#12 = 0 then some (.rdreg (Reg.ofNumber ((x ++ n : BitVec 12).extractLsb' 0 3)))
        else none := by
        rw [hassoc, decode_append]
        rfl
    _ = if x = 0 then some (.rdreg (Reg.ofNumber n)) else none := by
        simp only [hreserved, BitVec.extractLsb'_append_eq_right]

end Sys2Proof

namespace Sys2Proof.Machine

open Sys2Proof.Safety

/-- A concatenation is a sum: the upper part counts in units of the lower part's size. -/
theorem toNat_append_eq_add {m n : Nat} (x : BitVec m) (y : BitVec n) : (x ++ y).toNat = 2 ^ n * x.toNat + y.toNat := by
  rw [BitVec.toNat_append, Nat.shiftLeft_eq, Nat.mul_comm, Nat.two_pow_add_eq_or_of_lt y.isLt]

theorem seqCode_toNat (q : SeqState) : (seqCode q).toNat = seqNumber q := by cases q <;> rfl

/-- STATUS as a number, field by field (R26). -/
theorem statusWord_eq_ofNat (x : ErrorRecord) (q : SeqState) :
    statusWord x q =
      BitVec.ofNat 16
        (seqNumber q + 4 * x.inv.toNat + 8 * x.ovf.toNat + 16 * x.ill.toNat + 32 * x.badarg.toNat + 64 * x.seqerr.toNat +
          128 * x.eor.toNat + 256 * x.ecode.toNat) := by
  refine (BitVec.toNat_eq_nat.mp ?_).2
  simp only [statusWord, toNat_append_eq_add, BitVec.toNat_ofBool, BitVec.toNat_ofNat, seqCode_toNat]
  omega

/-- The LFSR view as a number, field by field (R151). -/
theorem lfsrView_eq_ofNat (e : Engine) :
    lfsrView e = BitVec.ofNat 16 (256 * e.sc.toNat + 32 * e.ob.toNat + 16 * e.sz.toNat + e.r.toNat) := by
  refine (BitVec.toNat_eq_nat.mp ?_).2
  simp only [lfsrView, toNat_append_eq_add, BitVec.toNat_ofBool, BitVec.toNat_ofNat]
  omega

theorem respond_sameBlock (d : Word) (s : State) : SameBlock s (respond d s) :=
  ⟨respond_engine s d, respond_romq s d, respond_sequencer s d, respond_errors s d⟩

/-- NOP and RDREG raise no error and touch no buffer: they complete from every state (R151, R152). -/
theorem exec_nop (s : State) : exec .nop s = .next (respond 0 s) := exec_of_effect rfl rfl
theorem exec_rdreg (n : Reg) (s : State) : exec (.rdreg n) s = .next (respond (registerView n s) s) := exec_of_effect rfl rfl

/-- RDREG answers with the view of its register, whatever that is worked out to be. -/
theorem answered_of_registerView {n : Reg} {s : State} {d : Word} (h : registerView n s = d) :
    Answered d s (respond (registerView n s) s) := h ▸ respond_answered _ rfl rfl

end Sys2Proof.Machine

open Sys2Proof Sys2Proof.Machine in
/-- Settles O12: NOP answers 0 from the state it finds. -/
theorem nopWritesNothing : Obligations.NopWritesNothing := by
  unfold Obligations.NopWritesNothing
  exact ⟨decode_nop_word, fun s => ⟨_, exec_nop s, respond_answered _ rfl rfl, respond_sameBlock _ s⟩⟩

open Sys2Proof Sys2Proof.Machine in
/-- Settles O29: RDREG answers the view from the state it finds; STATUS and the LFSR view are concatenations, read as sums. -/
theorem rdregReadsARegister : Obligations.RdregReadsARegister := by
  unfold Obligations.RdregReadsARegister
  refine ⟨fun x n => ?_, fun n s => ⟨_, exec_rdreg n s, respond_sameBlock _ s, ?_⟩⟩
  · rw [decode_rdreg_word, ofNumber_eq_getD]
  · cases n with
    | status => exact answered_of_registerView (statusWord_eq_ofNat s.errors s.sequencer.seq)
    | lfsr => exact answered_of_registerView (lfsrView_eq_ofNat s.engine)
    | seg => exact answered_of_registerView (BitVec.ofNat_toNat 16 s.engine.seg).symm
    | romq => exact answered_of_registerView (BitVec.ofNat_toNat 16 s.romq).symm
    | len | dcnt | rp | eword => exact answered_of_registerView rfl
end

section
/-! Illegal words (R163) by opcode and operand, and that the encoding of a command is the one word that decodes to it (R70 to R73). -/

namespace Sys2Proof

/-- The operand bits that the layout of an opcode reserves (R70, R74), as they stand in the word. -/
def reservedMask (op : Nat) : Word :=
  match op with
  | 0x1 => 0x0FF0#16
  | 0x2 => 0x0FF0#16
  | 0x3 => 0x0FE0#16
  | 0x7 => 0x0F00#16
  | 0xA => 0x0FF8#16
  | _ => 0x0FFF#16

/-- A mask of operand bits does not see the opcode. -/
theorem append_and_operand_eq_zero_iff (op : BitVec 4) (x m : BitVec 12) :
    (op ++ x : Word) &&& (0#4 ++ m) = 0#16 ↔ x &&& m = 0 := by
  rw [BitVec.and_append, BitVec.and_zero, show (0#16 : Word) = 0#4 ++ 0#12 from rfl, append_eq_iff]
  exact and_iff_right rfl

/-- R163: the opcode has no row, or a reserved bit of its layout is set. -/
theorem decode_append_eq_none_iff (op : BitVec 4) (x : BitVec 12) :
    decode (op ++ x) = none ↔ 0xB ≤ op.toNat ∨ (op ++ x) &&& reservedMask op.toNat ≠ 0#16 := by
  have hmask (m : BitVec 12) := append_and_operand_eq_zero_iff op x m
  rw [decode_append]
  split
  case h_1 h | h_5 h | h_6 h | h_7 h | h_9 h | h_10 h => simpa [h, reservedMask] using (hmask 0xFFF#12).not.symm
  case h_2 h | h_3 h => simpa [h, reservedMask] using (hmask 0xFF0#12).not.symm
  case h_4 h => simpa [h, reservedMask] using (hmask 0xFE0#12).not.symm
  case h_8 h => simpa [h, reservedMask] using (hmask 0xF00#12).not.symm
  case h_11 h => simpa [h, reservedMask] using (hmask 0xFF8#12).not.symm
  case h_12 => exact iff_of_true rfl (.inl (by grind))

/-- Every register is the one that its number names (R151). -/
theorem decode_encode_rdreg (n : Reg) : decode (encode (.rdreg n)) = some (.rdreg n) := by cases n <;> decide

theorem encode_init : ∀ (c : Nibble) (z : Bool), encode (.init c z) = 0x3#4 ++ 0#7 ++ BitVec.ofBool z ++ c := by decide

theorem decode_encode (i : Instr) : decode (encode i) = some i := by
  cases i with
  | nop => exact decode_nop_word 0
  | enc d => exact encode_enc d ▸ decode_enc_word 0 d
  | seed d => exact encode_seed d ▸ decode_seed_word 0 d
  | init c z => exact encode_init c z ▸ decode_init_word 0 z c
  | step => exact decode_step_word 0
  | run => exact decode_run_word 0
  | begin => exact decode_begin_word 0
  | push ch => exact encode_push ch ▸ decode_push_word 0 ch
  | go => exact decode_go
  | rdbit => exact decode_rdbit
  | rdreg n => exact decode_encode_rdreg n

theorem number_ofNumber : ∀ n : BitVec 3, (Reg.ofNumber n).number = n := by decide

/-- An operand field that ends at bit 0, read from a word and put back into one, is the word under the mask of its width. -/
theorem setWidth_extractLsb'_eq_and (w m : Word) {n : Nat} (hm : m.toNat = 2 ^ n - 1) :
    (w.extractLsb' 0 n).setWidth 16 = w &&& m := by
  apply BitVec.eq_of_toNat_eq
  have hfield : w.toNat % 2 ^ n < 2 ^ n := Nat.mod_lt _ (Nat.two_pow_pos n)
  have hword := m.isLt
  rw [BitVec.toNat_and, hm, Nat.and_two_pow_sub_one_eq_mod, BitVec.toNat_setWidth, BitVec.extractLsb'_toNat,
    Nat.shiftRight_zero, Nat.mod_eq_of_lt (by omega)]

/-- INIT's two operand fields side by side are one field of five bits (R70). -/
theorem init_operand_eq_extractLsb' (w : Word) : BitVec.ofBool (w.getLsbD 4) ++ w.extractLsb' 0 4 = w.extractLsb' 0 5 := by
  have hbit : ∀ b : BitVec 1, BitVec.ofBool (b == 1#1) = b := by decide
  rw [BitVec.getLsbD_eq_extractLsb', hbit]
  exact BitVec.extractLsb'_append_extractLsb'_eq_extractLsb' rfl

/-- The operand field of what a row reads from a word: the word's bits outside the row's mask. -/
theorem operandBits_readOperands (m : Mnemonic) (w : Word) :
    operandBits (readOperands m w) = w &&& ~~~(rowOf m).mask := by
  cases m with
  | enc | seed => exact setWidth_extractLsb'_eq_and w 0xF rfl
  | init => exact (congrArg _ (init_operand_eq_extractLsb' w)).trans (setWidth_extractLsb'_eq_and w 0x1F rfl)
  | push => exact setWidth_extractLsb'_eq_and w 0xFF rfl
  | rdreg => exact (congrArg _ (number_ofNumber _)).trans (setWidth_extractLsb'_eq_and w 0x7 rfl)
  | nop | step | run | begin | go | rdbit => exact (BitVec.and_zero).symm

/-- No two words stand for one command: the row gives the bits under its mask, the operand the others. -/
theorem encode_of_decode {w : Word} {i : Instr} (h : decode w = some i) : encode i = w := by
  have hrow : ∀ r ∈ opcodeTable, r = rowOf r.mnemonic := by decide
  obtain ⟨r, hfind, rfl⟩ := Option.map_eq_some_iff.mp h
  have hmatches : w &&& r.mask = r.pattern := beq_iff_eq.mp (List.find?_some (p := (Row.matches · w)) hfind)
  have hr := hrow r (List.mem_of_find?_eq_some hfind)
  calc encode (readOperands r.mnemonic w)
      = (w &&& r.mask) ||| (w &&& ~~~r.mask) := by
        rw [encode, mnemonic_readOperands, operandBits_readOperands, ← hr, hmatches]
    _ = w := by rw [← BitVec.and_or_distrib_left, BitVec.or_not_self, BitVec.and_allOnes]

end Sys2Proof

open Sys2Proof Sys2Proof.Machine Sys2Proof.Safety in
/-- Settles O4: each opcode below 0xB has one layout, whose row asks for zeros in the reserved bits. -/
theorem reservedWordsAreRejected : Obligations.ReservedWordsAreRejected := by
  unfold Obligations.ReservedWordsAreRejected
  refine ⟨fun w => ?_, fun w s h => ⟨_, perform_of_illegal h s, raiseError_rejectedAs .ill w s⟩, fun w hw => ?_⟩
  · obtain ⟨op, x, rfl⟩ := word_split w
    rw [BitVec.extractLsb'_append_eq_left]
    exact decode_append_eq_none_iff op x
  · fin_cases hw <;> decide
end

section
/-! The errors of a command (R164 to R169): the model's chain of checks raises the first error that applies, in R169's order; and what
a word can leave: the error outcome, or the effect of its command (R162). -/

namespace Sys2Proof.Machine

open Sys2Proof.Safety

/-- The error that a command raises applies to it. -/
theorem errorApplies_of_errorOf {i : Instr} {s : State} {e : ErrorKind} (h : errorOf i s = some e) : ErrorApplies i s e := by
  cases i with
  | enc d =>
    rcases lt_or_ge d.toNat 10 with hd | hd
    · cases (errorOf_enc_of_digit s hd).symm.trans h
    · cases (errorOf_enc_of_not_digit s hd).symm.trans h
      exact ⟨d, .inl rfl, hd⟩
  | seed d =>
    rcases lt_or_ge d.toNat 10 with hd | hd
    · cases (errorOf_seed_of_digit s hd).symm.trans h
    · cases (errorOf_seed_of_not_digit s hd).symm.trans h
      exact ⟨d, .inr rfl, hd⟩
  | push ch =>
    by_cases hs : s.sequencer.seq = .loading
    · rw [errorOf_push_of_loading ch hs] at h
      split_ifs at h with hch hfull
      · cases h
        refine ⟨ch, rfl, ?_⟩
        have := isDigitChar_iff.not.mp (Bool.eq_false_iff.mp hch)
        omega
      · cases h
        exact ⟨ch, rfl, hfull⟩
    · cases (errorOf_push_of_not_loading ch hs).symm.trans h
      exact .inl ⟨.inl ⟨ch, rfl⟩, hs⟩
  | go =>
    by_cases hs : s.sequencer.seq = .loading
    · cases (errorOf_go_of_loading hs).symm.trans h
    · cases (errorOf_go_of_not_loading hs).symm.trans h
      exact .inl ⟨.inr rfl, hs⟩
  | rdbit =>
    by_cases hs : s.sequencer.seq = .done
    · rw [errorOf_rdbit_of_done hs] at h
      split_ifs at h with hrp
      cases h
      exact ⟨rfl, hrp⟩
    · cases (errorOf_rdbit_of_not_done hs).symm.trans h
      exact .inr ⟨rfl, hs⟩
  | _ => cases h

/-- A PUSH that is in sequence finds an open invocation (R167). -/
theorem loading_of_push_not_seqerr {ch : BitVec 8} {s : State} (h : ¬ ErrorApplies (.push ch) s .seqerr) :
    s.sequencer.seq = .loading := by
  by_contra hs
  exact h (.inl ⟨.inl ⟨ch, rfl⟩, hs⟩)

/-- R169: an error that applies, with none before it in the order, is the one that the command raises. -/
theorem errorOf_of_first {i : Instr} {s : State} {e : ErrorKind} (h : ErrorApplies i s e)
    (hfirst : ∀ e' ∈ errorOrder.takeWhile (fun e' => decide (e' ≠ e)), ¬ ErrorApplies i s e') : errorOf i s = some e := by
  cases e with
  | ill => cases h
  | badarg =>
    obtain ⟨d, rfl | rfl, hd⟩ := h
    · exact errorOf_enc_of_not_digit s hd
    · exact errorOf_seed_of_not_digit s hd
  | seqerr =>
    obtain ⟨⟨ch, rfl⟩ | rfl, hs⟩ | ⟨rfl, hs⟩ := h
    · exact errorOf_push_of_not_loading ch hs
    · exact errorOf_go_of_not_loading hs
    · exact errorOf_rdbit_of_not_done hs
  | invalidDigit =>
    obtain ⟨ch, rfl, hch⟩ := h
    have hs := loading_of_push_not_seqerr (hfirst .seqerr (by decide))
    have hno : isDigitChar ch = false := Bool.eq_false_iff.mpr (isDigitChar_iff.not.mpr (by omega))
    rw [errorOf_push_of_loading ch hs, if_pos hno]
  | ovf =>
    obtain ⟨ch, rfl, hfull⟩ := h
    have hs := loading_of_push_not_seqerr (hfirst .seqerr (by decide))
    have hdigit : isDigitChar ch = true := isDigitChar_iff.mpr (by
      by_contra hch
      exact hfirst .invalidDigit (by decide) ⟨ch, rfl, by omega⟩)
    rw [errorOf_push_of_loading ch hs, if_neg (ne_false_of_eq_true hdigit), if_pos hfull]
  | eor =>
    obtain ⟨rfl, hrp⟩ := h
    have hs : s.sequencer.seq = .done := by
      by_contra hs
      exact hfirst .seqerr (by decide) (.inr ⟨rfl, hs⟩)
    exact errorOf_rdbit_at_end hs hrp

/-- If a word leaves a next state, it was rejected with an error that its illegality or its command accounts for, or its command had
its effect. -/
theorem perform_next_cases {w : Word} {s t : State} (h : perform w s = .next t) :
    (∃ e, t = raiseError e w s ∧ (decode w = none → e = .ill) ∧ ∀ i, decode w = some i → ErrorApplies i s e) ∨
      ∃ i, decode w = some i ∧ t = effectOf i s := by
  cases hd : decode w with
  | none =>
    cases (perform_of_illegal hd s).symm.trans h
    exact .inl ⟨.ill, rfl, fun _ => rfl, nofun⟩
  | some i =>
    rw [perform_of_decode hd] at h
    rcases exec_next_cases h with ⟨e, he, rfl⟩ | ⟨-, -, rfl⟩
    · refine .inl ⟨e, by rw [encode_of_decode hd], nofun, ?_⟩
      rintro _ ⟨⟩
      exact errorApplies_of_errorOf he
    · exact .inr ⟨i, rfl, rfl⟩

theorem effectOf_rsp_ok (i : Instr) (s : State) : (effectOf i s).host.rsp.map Response.ok = some true := by
  obtain ⟨d, hans⟩ := effectOf_answered i s
  rw [hans.response, Option.map_some]

theorem raiseError_rsp_ok (e : ErrorKind) (w : Word) (s : State) :
    (raiseError e w s).host.rsp.map Response.ok = some false := by rw [raiseError_rsp, Option.map_some]

theorem errorCode_ne_zero : ∀ e : ErrorKind, errorCode e ≠ 0
  | .invalidDigit | .ovf | .ill | .badarg | .seqerr | .eor => by decide

end Sys2Proof.Machine

open Sys2Proof Sys2Proof.Machine in
/-- Settles O30: a command that has its effect is answered with success, so a rejected word had the error outcome. -/
theorem rejectionIsPrecise : Obligations.RejectionIsPrecise := by
  unfold Obligations.RejectionIsPrecise
  intro w s t h hrejected
  rcases perform_next_cases h with ⟨e, rfl, hill, happlies⟩ | ⟨i, -, rfl⟩
  · refine ⟨e, raiseError_rejectedAs e w s, ?_⟩
    split
    · next hd => exact hill hd
    · next i hd => exact happlies i hd
  · cases (effectOf_rsp_ok i s).symm.trans hrejected

open Sys2Proof Sys2Proof.Machine in
/-- Settles O31: the model's checks stand in R169's order. -/
theorem firstErrorIsRaised : Obligations.FirstErrorIsRaised := by
  unfold Obligations.FirstErrorIsRaised
  refine ⟨fun w s hd => ⟨_, perform_of_illegal hd s, raiseError_rejectedAs .ill w s⟩, fun i s e happlies hfirst => ?_,
    fun i s t hnone h => ?_⟩
  · rw [perform_of_decode (decode_encode i)]
    exact exec_rejectedAs (errorOf_of_first happlies hfirst) rfl
  · rcases exec_next_cases h with ⟨e, he, -⟩ | ⟨-, -, rfl⟩
    · exact absurd (errorApplies_of_errorOf he) (hnone e)
    · exact effectOf_answered i s

open Sys2Proof Sys2Proof.Machine Sys2Proof.Safety in
/-- Settles O34: an error sets a flag and clears none, no effect but BEGIN's writes the error record, and FAILED is left by BEGIN
only (`perform_of_failed`). -/
theorem errorFlagsAreSticky : Obligations.ErrorFlagsAreSticky := by
  unfold Obligations.ErrorFlagsAreSticky
  intro w s t h hw
  have hfailed (hs : s.sequencer.seq = .failed) : t.sequencer.seq = .failed := by
    obtain ⟨t', a, ht', -, hkeep, -⟩ := perform_of_failed hs hw
    cases ht'.symm.trans h
    rw [hkeep, hs]
  rcases perform_next_cases h with ⟨e, rfl, -⟩ | ⟨i, hd, rfl⟩
  · have hr := raiseError_rejectedAs e w s
    have keeps {b b' c : Bool} (heq : b' = (b || c)) (hb : b = true) : b' = true := heq.trans (Bool.or_inl hb)
    exact ⟨keeps hr.inv, keeps hr.ovf, keeps hr.ill, keeps hr.badarg, keeps hr.seqerr, keeps hr.eor, hfailed,
      fun hok => (nomatch (raiseError_rsp_ok e w s).symm.trans hok), fun _ => ⟨errorCode_ne_zero e, rfl⟩⟩
  · have hbegin : i ≠ .begin := by
      rintro rfl
      exact hw (eq_begin_word_of_decode hd)
    rw [effectOf_errors s hbegin]
    exact ⟨id, id, id, id, id, id, hfailed, fun _ => rfl, fun hno => (nomatch (effectOf_rsp_ok i s).symm.trans hno)⟩
end

section
/-! Reset (R180): what the reset state holds, and that an edge with rst = 1 leaves it whatever else that edge finds. -/

namespace Sys2Proof.Machine

open Sys2Proof.Safety

/-- The model's reset state is R180's column, for every capacity and whatever the host still has to send. -/
theorem resetWith_resetValues (c : Config.Capacity) (inputs : List HostInput) : ResetValues (State.resetWith c inputs) :=
  ⟨rfl, rfl, rfl, rfl, rfl, rfl, rfl, rfl, rfl, rfl, ⟨rfl, rfl, rfl, rfl, rfl, rfl⟩, rfl, rfl, rfl, rfl, rfl, rfl⟩

theorem applyReset_resetValues (s : State) : ResetValues (applyReset s) := resetWith_resetValues s.capacity s.host.inputs

/-- Reset takes priority over the command in progress and over the one presented (R180). -/
theorem clockEdge_of_rst {p : EdgeInput} (h : p.rst = true) (s : State) : clockEdge p s = .next (applyReset s) := if_pos h

end Sys2Proof.Machine

open Sys2Proof Sys2Proof.Machine in
/-- Settles O11: an edge with rst = 1 applies the reset before it looks at any command. -/
theorem resetGivesResetValues : Obligations.ResetGivesResetValues := by
  unfold Obligations.ResetGivesResetValues
  exact ⟨fun p s hrst => ⟨applyReset s, clockEdge_of_rst hrst s, applyReset_resetValues s, applyReset_capacity s⟩,
    resetWith_resetValues, resetWith_resetValues _ _⟩
end

section
/-! The round trip of the encoding in both directions (R70 to R73), the spec's own words (R77), and the words of the pseudo-commands
(R78). -/

namespace Sys2Proof

/-- A line whose operands are in range assembles to the words of what it expands to. -/
theorem assemble_of_wellFormed {a : AsmLine} (h : a.wellFormed = true) : a.assemble = some (a.expand.map encode) := if_pos h

/-- R77: an ENCODE line is well formed when its characters are ASCII (D10). -/
theorem wellFormed_encode {cs : List Char} (h : ∀ c ∈ cs, c.toNat < 128) : (AsmLine.encode cs).wellFormed = true :=
  List.all_eq_true.mpr fun c hc => decide_eq_true (Nat.le_of_lt_succ (h c hc))

/-- R78: BEGIN, one PUSH word per character, GO. -/
theorem expand_encode_words (cs : List Char) :
    (AsmLine.encode cs).expand.map encode = 0x6000#16 :: cs.map (fun c => 0x70#8 ++ BitVec.ofNat 8 c.toNat) ++ [0x8000#16] := by
  have hpush : (encode ∘ fun c : Char => .push (AsmChar.quoted c).value) = fun c => 0x70#8 ++ BitVec.ofNat 8 c.toNat :=
    funext fun c => encode_push _
  rw [AsmLine.expand, List.map_append, List.map_cons, List.map_map, hpush]
  rfl

/-- R78: RDREG LEN and one RDBIT per bit. -/
theorem expand_readall_words (n : Nat) :
    (AsmLine.readall n).expand.map encode = 0xA003#16 :: List.replicate n 0x9000#16 := by
  rw [AsmLine.expand, List.map_cons, List.map_replicate]
  rfl

/-- The word of SEED as a number (R70). -/
theorem encode_seed_ofNat : ∀ d ≤ 15, encode (.seed (BitVec.ofNat 4 d)) = BitVec.ofNat 16 (0x2000 + d) := by decide

end Sys2Proof

open Sys2Proof in
/-- Settles O1, command by command: each operand field is read back as it was written (`decode_encode`). -/
theorem decodeEncodeRoundTrip : Obligations.DecodeEncodeRoundTrip := by
  unfold Obligations.DecodeEncodeRoundTrip
  exact decode_encode

open Sys2Proof in
/-- Settles O2: a word is its row's match under the mask and its operand outside it (`encode_of_decode`). -/
theorem encodeDecodeRoundTrip : Obligations.EncodeDecodeRoundTrip := by
  unfold Obligations.EncodeDecodeRoundTrip
  exact fun w i h => encode_of_decode h

open Sys2Proof in
/-- Settles O5: each word is the encoding of its command; 0x1010 sets a reserved bit of ENC. -/
theorem sampleWordsDecode : Obligations.SampleWordsDecode := by
  unfold Obligations.SampleWordsDecode
  exact ⟨decode_encode .nop, decode_encode (.enc 9), decode_encode (.seed 3), decode_encode (.init 0b1001 false),
    decode_encode (.init 0b0011 true), decode_encode .step, decode_encode .run, decode_encode .begin, decode_encode (.push 0x30),
    decode_encode (.push 0x61), decode_encode .go, decode_encode .rdbit, decode_encode (.rdreg .len), by decide⟩

open Sys2Proof in
/-- Settles O6: the operands are in range, and each command of the expansion has the word named. -/
theorem pseudoCommandsExpand : Obligations.PseudoCommandsExpand := by
  unfold Obligations.PseudoCommandsExpand
  refine ⟨fun cs hcs => ?_, fun n hn => ?_, fun d hd => ?_⟩
  · rw [assemble_of_wellFormed (wellFormed_encode hcs), expand_encode_words]
  · rw [assemble_of_wellFormed (a := .readall n) (decide_eq_true hn), expand_readall_words]
  · rw [assemble_of_wellFormed (a := .seedrun d) (decide_eq_true hd), ← encode_seed_ofNat d hd]
    rfl
end

section
/-! What a word and a step can do, as an induction principle for invariants: what holds after a reset, does not look at the host port,
and survives every error outcome and every effect, is kept by every word and every step. -/

namespace Sys2Proof.Machine

open Sys2Proof.Safety

/-- PUSH alone raises a fatal error (R161, R165, R166). -/
theorem push_of_fatal {i : Instr} {s : State} {e : ErrorKind} (h : errorOf i s = some e) (hfatal : errorFatal e = true) :
    ∃ ch, i = .push ch := by
  have happlies := errorApplies_of_errorOf h
  cases e with
  | invalidDigit | ovf =>
    obtain ⟨ch, hi, -⟩ := happlies
    exact ⟨ch, hi⟩
  | ill | badarg | seqerr | eor => cases hfatal

/-- And it does so in LOADING only: elsewhere it gets no further than its place in the sequence (R169). -/
theorem loading_of_fatal {i : Instr} {s : State} {e : ErrorKind} (h : errorOf i s = some e) (hfatal : errorFatal e = true) :
    s.sequencer.seq = .loading := by
  obtain ⟨ch, rfl⟩ := push_of_fatal h hfatal
  by_contra hs
  cases (errorOf_push_of_not_loading ch hs).symm.trans h
  cases hfatal

/-- If a word leaves a next state, that is the error outcome of an error, which is fatal in LOADING only, or the effect of the command
it decodes to, with no error and no missing buffer entry. -/
theorem perform_next_inv {w : Word} {s t : State} (h : perform w s = .next t) :
    (∃ e, t = raiseError e w s ∧ (errorFatal e = true → s.sequencer.seq = .loading)) ∨
      ∃ i, decode w = some i ∧ errorOf i s = none ∧ faultOf i s = none ∧ t = effectOf i s := by
  cases hd : decode w with
  | none =>
    cases (perform_of_illegal hd s).symm.trans h
    exact .inl ⟨.ill, rfl, nofun⟩
  | some i =>
    rw [perform_of_decode hd] at h
    rcases exec_next_cases h with ⟨e, he, rfl⟩ | ⟨he, hf, rfl⟩
    · exact .inl ⟨e, by rw [encode_of_decode hd], loading_of_fatal he⟩
    · exact .inr ⟨i, rfl, he, hf, rfl⟩

/-- A property of states that every word and every step keeps, by what they can do. -/
structure Kept (P : State → Prop) : Prop where
  reset : ∀ c inputs, P (State.resetWith c inputs)
  port : ∀ s h, P s → P { s with host := h }
  error : ∀ e w s, (errorFatal e = true → s.sequencer.seq = .loading) → P s → P (raiseError e w s)
  effect : ∀ i s, errorOf i s = none → faultOf i s = none → P s → P (effectOf i s)

theorem Kept.perform {P : State → Prop} (hP : Kept P) {w : Word} {s t : State} (h : perform w s = .next t) (hs : P s) : P t := by
  rcases perform_next_inv h with ⟨e, rfl, hfatal⟩ | ⟨i, -, he, hf, rfl⟩
  · exact hP.error e w s hfatal hs
  · exact hP.effect i s he hf hs

theorem Kept.step {P : State → Prop} (hP : Kept P) {s t : State} (h : step s = .next t) (hs : P s) : P t := by
  rcases step_cases s with ⟨w, -, hw⟩ | ⟨-, -, hwait⟩ | ⟨rest, -, -, hreset⟩ | ⟨w, rest, -, -, hw⟩
  · exact hP.perform (hw.symm.trans h) hs
  · cases hwait.symm.trans h
    exact hP.port s _ hs
  · cases hreset.symm.trans h
    exact hP.reset _ _
  · exact hP.perform (hw.symm.trans h) (hP.port s _ hs)

section Effects

/-- A command is one of the sequencer's four, or its effect leaves the sequencer and the error record alone. -/
theorem sequencer_command_or_frame (i : Instr) (s : State) :
    i = .begin ∨ (∃ ch, i = .push ch) ∨ i = .go ∨ i = .rdbit ∨
      (effectOf i s).sequencer = s.sequencer ∧ (effectOf i s).errors = s.errors := by
  by_cases hb : i = .begin
  · exact .inl hb
  · cases hi : needsInvocation i with
    | false =>
      exact .inr (.inr (.inr (.inr ⟨effectOf_sequencer_of_not_needsInvocation s hb hi, effectOf_errors s hb⟩)))
    | true =>
      cases i with
      | push ch => exact .inr (.inl ⟨ch, rfl⟩)
      | go => exact .inr (.inr (.inl rfl))
      | rdbit => exact .inr (.inr (.inr (.inl rfl)))
      | _ => cases hi

variable {s : State}

theorem errorOf_push_eq_none_iff {ch : BitVec 8} :
    errorOf (.push ch) s = none ↔ s.sequencer.seq = .loading ∧ isDigitChar ch = true ∧ s.sequencer.dcnt.toNat ≠ s.maxd := by
  rw [errorOf]
  split_ifs <;> simp_all

theorem errorOf_go_eq_none_iff : errorOf .go s = none ↔ s.sequencer.seq = .loading := by
  rw [errorOf]
  split_ifs <;> simp_all

theorem errorOf_rdbit_eq_none_iff :
    errorOf .rdbit s = none ↔ s.sequencer.seq = .done ∧ s.sequencer.rp ≠ s.sequencer.len := by
  rw [errorOf]
  split_ifs <;> simp_all

/-- PUSH has its effect in LOADING, on a digit character, with room for it (R131). -/
theorem push_premises {ch : BitVec 8} (he : errorOf (.push ch) s = none) (hf : faultOf (.push ch) s = none) :
    s.sequencer.seq = .loading ∧ isDigitChar ch = true ∧ s.sequencer.dcnt.toNat < s.maxd := by
  obtain ⟨hs, hch, -⟩ := errorOf_push_eq_none_iff.mp he
  rw [faultOf] at hf
  split_ifs at hf with hroom
  exact ⟨hs, hch, hroom⟩

/-- GO has its effect in LOADING, where MAXD bounds DCNT (R133). -/
theorem go_premises (he : errorOf .go s = none) (hf : faultOf .go s = none) :
    s.sequencer.seq = .loading ∧ s.sequencer.dcnt.toNat ≤ s.maxd := by
  rw [faultOf] at hf
  split_ifs at hf with hd
  exact ⟨errorOf_go_eq_none_iff.mp he, hd⟩

theorem effectOf_push_sequencer (ch : BitVec 8) (s : State) :
    (effectOf (.push ch) s).sequencer = storeDigit (digitOfChar ch) s.sequencer := rfl

/-- PUSH counts DCNT up, and has room to. -/
theorem effectOf_push_dcnt_toNat (ch : BitVec 8) (hroom : s.sequencer.dcnt.toNat < s.maxd) :
    (effectOf (.push ch) s).sequencer.dcnt.toNat = s.sequencer.dcnt.toNat + 1 := by
  have hmax := maxd_bounds s
  exact word_succ_toNat (by omega)

theorem effectOf_go_errors (s : State) : (effectOf .go s).errors = s.errors := effectOf_errors s nofun

theorem effectOf_begin_sequencer (s : State) : (effectOf .begin s).sequencer = openInvocation s.sequencer := rfl

end Effects

end Sys2Proof.Machine
end

section
/-! The invariants of R31, what the buffers hold (R50 to R53) and the layout of the result (R54): each at reset, and kept by every
error outcome and every effect. -/

namespace Sys2Proof.Machine

open Sys2Proof.Safety

variable {s t : State}

/-- An error outcome leaves SEQ as it is, or closes an open invocation as FAILED (R161, R162). -/
theorem raiseError_seq_cases {e : ErrorKind} (w : Word) (hfatal : errorFatal e = true → s.sequencer.seq = .loading) :
    (raiseError e w s).sequencer.seq = s.sequencer.seq ∨
      s.sequencer.seq = .loading ∧ (raiseError e w s).sequencer.seq = .failed := by
  rw [raiseError_seq]
  split_ifs with h
  · exact .inr ⟨hfatal h, rfl⟩
  · exact .inl rfl

/-- Every error has a flag (R161), so after an error not all of them are 0. -/
theorem recordError_flag (e : ErrorKind) (w : Word) (x : ErrorRecord) :
    ¬ ((recordError e w x).inv = false ∧ (recordError e w x).ovf = false ∧ (recordError e w x).ill = false ∧
      (recordError e w x).badarg = false ∧ (recordError e w x).seqerr = false ∧ (recordError e w x).eor = false) := by
  cases e <;> simp [recordError, setErrorFlag]

theorem dbufRead_go (s : State) (k : Nat) : dbufRead (effectOf .go s).sequencer k = dbufRead s.sequencer k := by
  rw [dbufRead, dbufRead, effectOf_go_dbuf]

/-- `digit(ch)` of a digit character is a digit (R132). -/
theorem digitOfChar_toNat_lt {ch : BitVec 8} (h : isDigitChar ch = true) : (digitOfChar ch).toNat < 10 := by
  obtain ⟨hlo, hhi⟩ := isDigitChar_iff.mp h
  rw [digitOfChar_eq_ofNat hlo, BitVec.toNat_ofNat]
  omega

section Invariants

theorem blockInv_resetWith (c : Config.Capacity) (inputs : List HostInput) : BlockInv (State.resetWith c inputs) where
  dcnt_le := Nat.zero_le _
  rp_le := Nat.le_refl _
  done_len := nofun
  open_len := nofun
  idle_zero _ := ⟨rfl, rfl, rfl⟩
  ecode_zero := iff_of_true rfl ⟨rfl, rfl, rfl, rfl, rfl, rfl⟩
  digits _ hk := absurd hk (Nat.not_lt_zero _)

/-- R31 speaks of the sequencer, the error record and MAXD only. -/
theorem blockInv_congr (h : BlockInv s) (hq : t.sequencer = s.sequencer) (hx : t.errors = s.errors) (hm : t.maxd = s.maxd) :
    BlockInv t := by
  constructor <;> simp only [hq, hx, hm]
  exacts [h.dcnt_le, h.rp_le, h.done_len, h.open_len, h.idle_zero, h.ecode_zero, h.digits]

theorem blockInv_raiseError {e : ErrorKind} (w : Word) (hfatal : errorFatal e = true → s.sequencer.seq = .loading)
    (h : BlockInv s) : BlockInv (raiseError e w s) := by
  have hecode := iff_of_false (errorCode_ne_zero e) (recordError_flag e w s.errors)
  rcases raiseError_seq_cases w hfatal with hseq | ⟨hloading, hfailed⟩
  · exact ⟨h.dcnt_le, h.rp_le, hseq ▸ h.done_len, hseq ▸ h.open_len, hseq ▸ h.idle_zero, hecode, h.digits⟩
  · exact ⟨h.dcnt_le, h.rp_le, hfailed ▸ nofun, fun _ => h.open_len (.inl hloading), hfailed ▸ nofun, hecode, h.digits⟩

theorem blockInv_begin (s : State) : BlockInv (effectOf .begin s) where
  dcnt_le := Nat.zero_le _
  rp_le := Nat.zero_le _
  done_len := nofun
  open_len _ := ⟨rfl, rfl, (aggRead_openInvocation s.sequencer 0).trans (if_pos rfl)⟩
  idle_zero := nofun
  ecode_zero := iff_of_true rfl ⟨rfl, rfl, rfl, rfl, rfl, rfl⟩
  digits _ hk := absurd hk (Nat.not_lt_zero _)

theorem blockInv_push {ch : BitVec 8} (hs : s.sequencer.seq = .loading) (hch : isDigitChar ch = true)
    (hroom : s.sequencer.dcnt.toNat < s.maxd) (h : BlockInv s) : BlockInv (effectOf (.push ch) s) := by
  have hseq : (effectOf (.push ch) s).sequencer.seq = .loading := hs
  have hdcnt := effectOf_push_dcnt_toNat ch hroom
  refine ⟨?_, h.rp_le, hseq ▸ nofun, fun _ => h.open_len (.inl hs), hseq ▸ nofun, h.ecode_zero, fun k hk => ?_⟩
  · rw [hdcnt, effectOf_maxd]
    exact hroom
  · rw [hdcnt] at hk
    rw [effectOf_push_sequencer, dbufRead_storeDigit]
    split_ifs with hlast
    · exact digitOfChar_toNat_lt hch
    · exact h.digits k (by omega)

theorem blockInv_go (hs : s.sequencer.seq = .loading) (h : BlockInv s) : BlockInv (effectOf .go s) := by
  obtain ⟨-, -, hsentinel⟩ := h.open_len (.inl hs)
  refine ⟨?_, ?_, fun _ => ⟨?_, ?_⟩, effectOf_go_seq s ▸ nofun, effectOf_go_seq s ▸ nofun, ?_, fun k hk => ?_⟩
  · rw [effectOf_go_dcnt, effectOf_maxd]
    exact h.dcnt_le
  · rw [effectOf_go_rp]
    exact Nat.zero_le _
  · rw [effectOf_go_len_toNat s h.dcnt_le, effectOf_go_dcnt]
  · rw [aggRead_go_other s (.inl rfl), hsentinel]
  · rw [effectOf_go_errors]
    exact h.ecode_zero
  · rw [effectOf_go_dcnt] at hk
    rw [dbufRead_go]
    exact h.digits k hk

/-- R31 (b): where RP differs from LEN it is below it. -/
theorem rp_lt_len (h : BlockInv s) (hrp : s.sequencer.rp ≠ s.sequencer.len) :
    s.sequencer.rp.toNat < s.sequencer.len.toNat :=
  lt_of_le_of_ne h.rp_le fun heq => hrp (BitVec.eq_of_toNat_eq heq)

/-- RP stays at or below LEN: RDBIT counts it only where it differs from LEN. -/
theorem blockInv_rdbit (hs : s.sequencer.seq = .done) (hrp : s.sequencer.rp ≠ s.sequencer.len) (h : BlockInv s) :
    BlockInv (effectOf .rdbit s) := by
  have hseq : (effectOf .rdbit s).sequencer.seq = .done := hs
  have hlt := rp_lt_len h hrp
  have hlen := s.sequencer.len.isLt
  refine ⟨h.dcnt_le, ?_, fun _ => h.done_len hs, hseq ▸ nofun, hseq ▸ nofun, h.ecode_zero, h.digits⟩
  rw [effectOf_rdbit_len, effectOf_rdbit_sequencer, word_succ_toNat (by omega)]
  exact hlt

theorem blockInv_effectOf {i : Instr} (he : errorOf i s = none) (hf : faultOf i s = none) (h : BlockInv s) :
    BlockInv (effectOf i s) := by
  rcases sequencer_command_or_frame i s with rfl | ⟨ch, rfl⟩ | rfl | rfl | ⟨hq, hx⟩
  · exact blockInv_begin s
  · obtain ⟨hs, hch, hroom⟩ := push_premises he hf
    exact blockInv_push hs hch hroom h
  · obtain ⟨hs, -⟩ := go_premises he hf
    exact blockInv_go hs h
  · obtain ⟨hs, hrp⟩ := errorOf_rdbit_eq_none_iff.mp he
    exact blockInv_rdbit hs hrp h
  · exact blockInv_congr h hq hx (effectOf_maxd i s)

theorem blockInv_kept : Kept BlockInv where
  reset := blockInv_resetWith
  port s _ h := blockInv_congr (s := s) h rfl rfl rfl
  error _ w _ hfatal h := blockInv_raiseError w hfatal h
  effect _ _ he hf h := blockInv_effectOf he hf h

end Invariants

section Buffers

theorem stored_resetWith (c : Config.Capacity) (inputs : List HostInput) : Stored (State.resetWith c inputs) where
  memory_wf := ⟨List.Pairwise.nil, List.Pairwise.nil, nofun, nofun⟩
  dbuf_written _ hk := absurd hk (Nat.not_lt_zero _)
  agg_written _ hi := absurd hi (Nat.not_lt_zero _)

/-- What the buffers hold is said of the buffers, DCNT, LEN and MAXD. -/
theorem stored_congr (h : Stored s) (hb : t.sequencer.dbuf = s.sequencer.dbuf) (ha : t.sequencer.agg = s.sequencer.agg)
    (hd : t.sequencer.dcnt = s.sequencer.dcnt) (hl : t.sequencer.len = s.sequencer.len) (hm : t.maxd = s.maxd) : Stored t := by
  constructor <;> simp only [Memory.wf, hb, ha, hd, hl, hm]
  exacts [h.memory_wf, h.dbuf_written, h.agg_written]

theorem stored_begin (h : Stored s) : Stored (effectOf .begin s) := by
  obtain ⟨hdbuf, hagg, hdbufBelow, haggBelow⟩ := h.memory_wf
  refine ⟨⟨hdbuf, cellWrite_rising 0 false hagg, hdbufBelow, cellWrite_below false (by omega) haggBelow⟩,
    fun k hk => absurd hk (Nat.not_lt_zero k), fun i hi => ?_⟩
  cases Nat.lt_one_iff.mp hi
  exact Option.isSome_iff_exists.mpr ⟨false, cellRead_cellWrite_same _ 0 false⟩

theorem stored_push (ch : BitVec 8) (hroom : s.sequencer.dcnt.toNat < s.maxd) (h : Stored s) :
    Stored (effectOf (.push ch) s) := by
  obtain ⟨hdbuf, hagg, hdbufBelow, haggBelow⟩ := h.memory_wf
  have hdcnt := effectOf_push_dcnt_toNat ch hroom
  refine ⟨⟨cellWrite_rising _ _ hdbuf, hagg, cellWrite_below _ hroom hdbufBelow, haggBelow⟩, fun k hk => ?_, h.agg_written⟩
  have hcells : (effectOf (.push ch) s).sequencer.dbuf =
      cellWrite s.sequencer.dbuf s.sequencer.dcnt.toNat (digitOfChar ch) := rfl
  rw [hdcnt] at hk
  rw [hcells, cellRead_cellWrite]
  split_ifs with hlast
  · rfl
  · exact h.dbuf_written k (by omega)

theorem effectOf_go_agg (s : State) : (effectOf .go s).sequencer.agg = (goDigits s).sequencer.agg := by
  rw [effectOf_go_sequencer, closeInvocation]

/-- GO writes every entry of the result but the sentinel, which BEGIN wrote. -/
theorem stored_go (hs : s.sequencer.seq = .loading) (hd : s.sequencer.dcnt.toNat ≤ s.maxd) (hinv : BlockInv s) (h : Stored s) :
    Stored (effectOf .go s) := by
  obtain ⟨hdbuf, hagg, hdbufBelow, haggBelow⟩ := h.memory_wf
  obtain ⟨hlen, -, -⟩ := hinv.open_len (.inl hs)
  constructor
  · rw [Memory.wf, effectOf_go_dbuf, effectOf_go_agg, effectOf_maxd]
    exact ⟨hdbuf, goDigits_rising s hagg, hdbufBelow, goDigits_below s hd haggBelow⟩
  · rw [effectOf_go_dcnt, effectOf_go_dbuf]
    exact h.dbuf_written
  · intro i hi
    rw [effectOf_go_len_toNat s hd] at hi
    rw [effectOf_go_agg, goDigits_agg]
    split_ifs with hseg
    · rfl
    · obtain rfl : i = 0 := by omega
      exact h.agg_written 0 (hlen ▸ Nat.one_pos)

theorem stored_effectOf {i : Instr} (he : errorOf i s = none) (hf : faultOf i s = none) (hinv : BlockInv s) (h : Stored s) :
    Stored (effectOf i s) := by
  rcases sequencer_command_or_frame i s with rfl | ⟨ch, rfl⟩ | rfl | rfl | ⟨hq, -⟩
  · exact stored_begin h
  · obtain ⟨-, -, hroom⟩ := push_premises he hf
    exact stored_push ch hroom h
  · obtain ⟨hs, hd⟩ := go_premises he hf
    exact stored_go hs hd hinv h
  · exact stored_congr h rfl rfl rfl rfl rfl
  · exact stored_congr h (congrArg _ hq) (congrArg _ hq) (congrArg _ hq) (congrArg _ hq) (effectOf_maxd i s)

theorem stored_kept : Kept fun s => BlockInv s ∧ Stored s where
  reset c inputs := ⟨blockInv_resetWith c inputs, stored_resetWith c inputs⟩
  port s h hs := ⟨blockInv_kept.port s h hs.1, stored_congr hs.2 rfl rfl rfl rfl rfl⟩
  error _ w _ hfatal hs := ⟨blockInv_raiseError w hfatal hs.1, stored_congr hs.2 rfl rfl rfl rfl rfl⟩
  effect _ _ he hf hs := ⟨blockInv_effectOf he hf hs.1, stored_effectOf he hf hs.1 hs.2⟩

end Buffers

section Layout

/-- A state whose sequencer differs in SEQ or RP from one whose result is laid out: if it is DONE, so is the other. -/
theorem resultLaidOut_congr (h : ResultLaidOut s) (hq : t.sequencer.seq = .done → s.sequencer.seq = .done)
    (hb : t.sequencer.dbuf = s.sequencer.dbuf) (ha : t.sequencer.agg = s.sequencer.agg)
    (hd : t.sequencer.dcnt = s.sequencer.dcnt) : ResultLaidOut t := by
  intro hdone
  simp only [dbufRead, aggRead, hb, ha, hd]
  exact h (hq hdone)

theorem resultLaidOut_go (s : State) : ResultLaidOut (effectOf .go s) := by
  intro _ k j hk hj
  rw [effectOf_go_dcnt] at hk
  rw [aggRead_go_segment s hk hj, dbufRead_go]

theorem resultLaidOut_kept : Kept ResultLaidOut where
  reset _ _ := nofun
  port s _ h := resultLaidOut_congr (s := s) h id rfl rfl rfl
  error e w s hfatal h := by
    refine resultLaidOut_congr h (fun hdone => ?_) rfl rfl rfl
    rcases raiseError_seq_cases w hfatal with hseq | ⟨-, hfailed⟩
    · exact hseq ▸ hdone
    · cases hfailed.symm.trans hdone
  effect i s he hf h := by
    rcases sequencer_command_or_frame i s with rfl | ⟨ch, rfl⟩ | rfl | rfl | ⟨hq, -⟩
    · exact nofun
    · obtain ⟨hs, -⟩ := push_premises he hf
      exact fun hdone => nomatch hs.symm.trans hdone
    · exact resultLaidOut_go s
    · exact resultLaidOut_congr h id rfl rfl rfl
    · exact resultLaidOut_congr h (fun hdone => hq ▸ hdone) (congrArg _ hq) (congrArg _ hq) (congrArg _ hq)

end Layout

end Sys2Proof.Machine

open Sys2Proof Sys2Proof.Machine in
/-- Settles O37: DCNT and LEN are 0 at reset and SEQ is IDLE, which leaves little to show. -/
theorem resetMeetsTheInvariants : Obligations.ResetMeetsTheInvariants := by
  unfold Obligations.ResetMeetsTheInvariants
  exact fun c inputs => ⟨blockInv_resetWith c inputs, stored_resetWith c inputs, resultLaidOut_kept.reset c inputs⟩

open Sys2Proof Sys2Proof.Machine in
/-- Settles O38: the invariants hold at reset and survive every error outcome and every effect (`blockInv_kept`). -/
theorem stepKeepsTheInvariants : Obligations.StepKeepsTheInvariants := by
  unfold Obligations.StepKeepsTheInvariants
  exact fun s t hs h => blockInv_kept.step h hs

open Sys2Proof Sys2Proof.Machine in
/-- Settles O39: together with R31, which gives GO the sentinel that BEGIN wrote (`stored_kept`). -/
theorem stepKeepsTheBuffersWritten : Obligations.StepKeepsTheBuffersWritten := by
  unfold Obligations.StepKeepsTheBuffersWritten
  exact fun s t hinv hs h => (stored_kept.step h ⟨hinv, hs⟩).2

open Sys2Proof Sys2Proof.Machine in
/-- Settles O40: GO lays the result out, and what leaves DONE as it is writes neither buffer nor DCNT (`resultLaidOut_kept`). -/
theorem stepKeepsTheResultLaidOut : Obligations.StepKeepsTheResultLaidOut := by
  unfold Obligations.StepKeepsTheResultLaidOut
  exact fun s t hs h => resultLaidOut_kept.step h hs
end

section
/-! How a word and a step end: which states a command stops in (R50), that every other word is answered once (R150), STATUS and SEQ
after it (R26, R135), and what R31's invariants make of that for every word and every list of words (R188, R190). -/

namespace Sys2Proof.Machine

open Sys2Proof.Safety

variable {s t : State}

section Stops

theorem exec_eq_fault_iff {i : Instr} {x : Fault} : exec i s = .fault x ↔ errorOf i s = none ∧ faultOf i s = some x := by
  rw [exec_eq]
  cases errorOf i s <;> cases faultOf i s <;> simp

/-- PUSH of a digit character stops where DBUF has no entry at DCNT. -/
theorem exec_push_eq_fault_iff {ch : BitVec 8} {x : Fault} :
    exec (.push ch) s = .fault x ↔
      x = .dbufIndex ∧ s.sequencer.seq = .loading ∧ s.maxd < s.sequencer.dcnt.toNat ∧ isDigitChar ch = true := by
  rw [exec_eq_fault_iff, errorOf_push_eq_none_iff, faultOf]
  split_ifs with hroom
  · exact iff_of_false nofun (by omega)
  · rw [Option.some_inj]
    exact ⟨fun ⟨⟨hs, hch, hne⟩, hx⟩ => ⟨hx.symm, hs, by omega, hch⟩, fun ⟨hx, hs, hlt, hch⟩ => ⟨⟨hs, hch, hlt.ne'⟩, hx.symm⟩⟩

/-- GO stops where DBUF has not as many entries as DCNT says. -/
theorem exec_go_eq_fault_iff {x : Fault} :
    exec .go s = .fault x ↔ x = .dbufIndex ∧ s.sequencer.seq = .loading ∧ s.maxd < s.sequencer.dcnt.toNat := by
  rw [exec_eq_fault_iff, errorOf_go_eq_none_iff, faultOf]
  split_ifs with hd
  · exact iff_of_false nofun (by omega)
  · rw [Option.some_inj]
    exact ⟨fun ⟨hs, hx⟩ => ⟨hx.symm, hs, by omega⟩, fun ⟨hx, hs, _⟩ => ⟨hs, hx.symm⟩⟩

/-- RDBIT stops where AGG has no entry at RP. -/
theorem exec_rdbit_eq_fault_iff {x : Fault} :
    exec .rdbit s = .fault x ↔
      x = .aggIndex ∧ s.sequencer.seq = .done ∧ s.sequencer.rp ≠ s.sequencer.len ∧ 15 * s.maxd < s.sequencer.rp.toNat := by
  rw [exec_eq_fault_iff, errorOf_rdbit_eq_none_iff, faultOf]
  split_ifs with hmax
  · exact iff_of_false nofun (by omega)
  · rw [Option.some_inj]
    exact ⟨fun ⟨⟨hs, hrp⟩, hx⟩ => ⟨hx.symm, hs, hrp, by omega⟩, fun ⟨hx, hs, hrp, _⟩ => ⟨⟨hs, hrp⟩, hx.symm⟩⟩

theorem exec_ne_fault {i : Instr} (hi : needsInvocation i = false) (x : Fault) : exec i s ≠ .fault x := by
  intro h
  obtain ⟨-, hf⟩ := exec_eq_fault_iff.mp h
  cases (faultOf_of_not_needsInvocation s hi).symm.trans hf

end Stops

section Answers

/-- R150, R185: a word that goes on is answered once, with data 0 when it is rejected, and the host's side and MAXD are kept. -/
theorem perform_answered {w : Word} (h : perform w s = .next t) :
    ∃ a, t.host.rsp = some a ∧ (a.ok = false → a.data = 0x0000#16) ∧ t.busy = false ∧ t.host.inputs = s.host.inputs ∧
      t.capacity = s.capacity := by
  rcases perform_next_cases h with ⟨e, rfl, -⟩ | ⟨i, -, rfl⟩
  · exact ⟨_, rfl, fun _ => rfl, rfl, rfl, rfl⟩
  · obtain ⟨d, hans⟩ := effectOf_answered i s
    exact ⟨_, hans.response, nofun, congrArg Option.isSome hans.ready, hans.inputs, hans.capacity⟩

theorem errorCode_toNat_le : ∀ e : ErrorKind, (errorCode e).toNat ≤ 6
  | .invalidDigit | .ovf | .ill | .badarg | .seqerr | .eor => by decide

/-- R26: ECODE is 0 after reset and BEGIN, an error's code after an error, and else as it was. -/
theorem ecode_le_kept : Kept fun s => s.errors.ecode.toNat ≤ 6 where
  reset _ _ := Nat.zero_le _
  port _ _ h := h
  error e _ _ _ _ := errorCode_toNat_le e
  effect i s _ _ h := by
    by_cases hb : i = .begin
    · subst hb
      exact Nat.zero_le _
    · rwa [effectOf_errors s hb]

/-- R26: the fields of STATUS lie below bit 12. -/
theorem statusWord_toNat_lt (x : ErrorRecord) (q : SeqState) : (statusWord x q).toNat < 0x1000 := by
  simp only [statusWord, toNat_append_eq_add, BitVec.toNat_ofNat]
  omega

/-- R135: SEQ is left by BEGIN, PUSH and GO only. -/
theorem exec_keeps_seq {i : Instr} (h : exec i s = .next t) (hb : i ≠ .begin) (hp : ∀ ch, i ≠ .push ch) (hg : i ≠ .go) :
    t.sequencer.seq = s.sequencer.seq := by
  rcases exec_next_cases h with ⟨e, he, rfl⟩ | ⟨-, -, rfl⟩
  · rw [raiseError_seq, if_neg]
    intro hfatal
    obtain ⟨ch, hi⟩ := push_of_fatal he hfatal
    exact hp ch hi
  · rcases sequencer_command_or_frame i s with rfl | ⟨ch, rfl⟩ | rfl | rfl | ⟨hq, -⟩
    · exact absurd rfl hb
    · exact absurd rfl (hp ch)
    · exact absurd rfl hg
    · rfl
    · rw [hq]

/-- R135: outside LOADING neither PUSH nor GO changes SEQ. -/
theorem exec_keeps_seq_of_seqerr {i : Instr} (he : errorOf i s = some .seqerr) (h : exec i s = .next t) :
    t.sequencer.seq = s.sequencer.seq := by
  cases (exec_of_error he).symm.trans h
  rfl

/-- R135: PUSH in LOADING fails the invocation for an invalid character or a full DBUF, and else leaves it open. -/
theorem push_seq_of_loading {ch : BitVec 8} (hs : s.sequencer.seq = .loading) (h : exec (.push ch) s = .next t) :
    t.sequencer.seq =
      if (ch.toNat < 0x30 ∨ 0x39 < ch.toNat) ∨ s.sequencer.dcnt.toNat = s.maxd then .failed else .loading := by
  have hchar : isDigitChar ch = false ↔ ch.toNat < 0x30 ∨ 0x39 < ch.toNat := by
    rw [← Bool.not_eq_true, isDigitChar_iff]
    omega
  rcases exec_next_cases h with ⟨e, he, rfl⟩ | ⟨he, hf, rfl⟩
  · rw [errorOf_push_of_loading ch hs] at he
    split_ifs at he with hno hfull
    · cases he
      exact (if_pos (.inl (hchar.mp hno))).symm
    · cases he
      exact (if_pos (.inr hfull)).symm
  · obtain ⟨-, hch, hne⟩ := errorOf_push_eq_none_iff.mp he
    rw [if_neg]
    · exact hs
    · rintro (hno | hfull)
      · exact ne_false_of_eq_true hch (hchar.mpr hno)
      · exact hne hfull

theorem go_seq_of_loading (hs : s.sequencer.seq = .loading) (h : exec .go s = .next t) : t.sequencer.seq = .done := by
  rcases exec_next_cases h with ⟨e, he, -⟩ | ⟨-, -, rfl⟩
  · cases (errorOf_go_of_loading hs).symm.trans he
  · exact effectOf_go_seq s

end Answers

section Outcomes

/-- The states that meet R31 are none of those where a command stops. -/
theorem faultOf_of_blockInv {i : Instr} (h : BlockInv s) (he : errorOf i s = none) : faultOf i s = none := by
  cases i with
  | push ch =>
    obtain ⟨-, -, hne⟩ := errorOf_push_eq_none_iff.mp he
    exact if_pos (lt_of_le_of_ne h.dcnt_le hne)
  | go => exact if_pos h.dcnt_le
  | rdbit =>
    obtain ⟨hs, hrp⟩ := errorOf_rdbit_eq_none_iff.mp he
    have hlt := rp_lt_len h hrp
    have hd := h.dcnt_le
    obtain ⟨hlen, -⟩ := h.done_len hs
    exact if_pos (by omega)
  | _ => rfl

/-- R190: in a state that meets R31 every word leads to a next state. -/
theorem perform_of_blockInv (w : Word) (h : BlockInv s) : ∃ t, perform w s = .next t := by
  cases hd : decode w with
  | none => exact ⟨_, perform_of_illegal hd s⟩
  | some i =>
    rw [perform_of_decode hd]
    cases he : errorOf i s with
    | some e => exact ⟨_, exec_of_error he⟩
    | none => exact ⟨_, exec_of_effect he (faultOf_of_blockInv h he)⟩

theorem step_of_blockInv (h : BlockInv s) : GoesOn s := by
  rcases step_cases s with ⟨w, -, hw⟩ | ⟨-, -, hwait⟩ | ⟨rest, -, -, hreset⟩ | ⟨w, rest, -, -, hw⟩
  · rw [GoesOn, hw]
    exact perform_of_blockInv w h
  · exact ⟨_, hwait⟩
  · exact ⟨_, hreset⟩
  · rw [GoesOn, hw]
    exact perform_of_blockInv w (blockInv_kept.port s _ h)

end Outcomes

end Sys2Proof.Machine

open Sys2Proof Sys2Proof.Machine in
/-- Settles O32: PUSH, GO and RDBIT alone use a buffer entry, and each has one condition under which it has none. -/
theorem stopsOnlyOutsideTheBuffers : Obligations.StopsOnlyOutsideTheBuffers := by
  unfold Obligations.StopsOnlyOutsideTheBuffers
  refine fun i s => ⟨exec_not_refused i s, ?_⟩
  cases i with
  | push ch => simp [exec_push_eq_fault_iff, isDigitChar_iff]
  | go => simp [exec_go_eq_fault_iff]
  | rdbit => simp [exec_rdbit_eq_fault_iff]
  | _ => exact ⟨iff_of_false (exec_ne_fault (by rfl) _) (by simp), iff_of_false (exec_ne_fault (by rfl) _) (by simp)⟩

open Sys2Proof Sys2Proof.Machine in
/-- Settles O33: both the error outcome and an effect end with an answer. -/
theorem everyCommandIsAnsweredOnce : Obligations.EveryCommandIsAnsweredOnce := by
  unfold Obligations.EveryCommandIsAnsweredOnce
  exact fun w s t h => perform_answered h

open Sys2Proof Sys2Proof.Machine in
/-- Settles O35: the six error codes are the values that ECODE takes, and STATUS is twelve bits of fields below four zeros. -/
theorem statusFieldsStayLegal : Obligations.StatusFieldsStayLegal := by
  unfold Obligations.StatusFieldsStayLegal
  refine ⟨fun s t hs h => ecode_le_kept.step h hs, fun s t h => ?_⟩
  cases (exec_rdreg .status s).symm.trans h
  exact ⟨_, statusWord_toNat_lt s.errors s.sequencer.seq, rfl⟩

open Sys2Proof Sys2Proof.Machine in
/-- Settles O36, command by command. -/
theorem seqTransitionTable : Obligations.SeqTransitionTable := by
  unfold Obligations.SeqTransitionTable
  refine ⟨fun i s t h => ?_, fun w s t hd h => ?_⟩
  · cases i with
    | begin =>
      cases (exec_of_effect rfl rfl).symm.trans h
      rfl
    | push ch =>
      by_cases hs : s.sequencer.seq = .loading
      · rw [push_seq_of_loading hs h, hs]
      · rw [exec_keeps_seq_of_seqerr (errorOf_push_of_not_loading ch hs) h]
        cases hq : s.sequencer.seq with
        | loading => exact absurd hq hs
        | idle | done | failed => rfl
    | go =>
      by_cases hs : s.sequencer.seq = .loading
      · rw [go_seq_of_loading hs h, hs]
      · rw [exec_keeps_seq_of_seqerr (errorOf_go_of_not_loading hs) h]
        cases hq : s.sequencer.seq with
        | loading => exact absurd hq hs
        | idle | done | failed => rfl
    | _ => exact exec_keeps_seq h nofun nofun nofun
  · cases (perform_of_illegal hd s).symm.trans h
    rfl

open Sys2Proof Sys2Proof.Machine Sys2Proof.Safety in
/-- Settles O41: R31 rules out the stops, and what is left is an error outcome or an answer. -/
theorem everyWordHasAnOutcome : Obligations.EveryWordHasAnOutcome := by
  unfold Obligations.EveryWordHasAnOutcome
  refine ⟨fun s h => step_of_blockInv h, fun w s h => ?_⟩
  obtain ⟨t, ht⟩ := perform_of_blockInv w h
  refine ⟨t, ht, ?_⟩
  rcases perform_next_cases ht with ⟨e, rfl, -⟩ | ⟨i, -, rfl⟩
  · exact .inr ⟨e, raiseError_rejectedAs e w s⟩
  · exact .inl (effectOf_answered i s)

open Sys2Proof Sys2Proof.Machine in
/-- Settles O42, by induction on the words: each one goes on, is answered, and keeps R31. -/
theorem everyRunIsAnswered : Obligations.EveryRunIsAnswered := by
  unfold Obligations.EveryRunIsAnswered
  intro ws
  induction ws with
  | nil => exact fun s hs => ⟨[], s, rfl, rfl, hs⟩
  | cons w ws ih =>
    intro s hs
    obtain ⟨t, ht⟩ := perform_of_blockInv w hs
    obtain ⟨a, hrsp, -⟩ := perform_answered ht
    obtain ⟨rs, u, hrun, hlen, hu⟩ := ih t (blockInv_kept.perform ht hs)
    exact ⟨a :: rs, u, by rw [runWords_cons_next ht hrsp, hrun], congrArg (· + 1) hlen, hu⟩
end

section
/-! A step by what there is to do (R181, R185), and the handshake at the level of clock edges, which a step stands for (R14, R185). -/

namespace Sys2Proof.Machine

open Sys2Proof.Safety

variable {s : State}

theorem step_of_inFlight {w : Word} (h : s.host.inFlight = some w) : step s = perform w s := by rw [step, fetch, h]

theorem step_of_no_input (h : s.host.inFlight = none) (hi : s.host.inputs = []) : step s = .next (presentNothing s) := by
  rw [step, fetch, h, hi]

theorem step_of_reset {rest : List HostInput} (h : s.host.inFlight = none) (hi : s.host.inputs = .reset :: rest) :
    step s = .next (applyReset (dropInput s)) := by
  rw [step, fetch, h, hi]

theorem step_of_command {w : Word} {rest : List HostInput} (h : s.host.inFlight = none) (hi : s.host.inputs = .command w :: rest) :
    step s = perform w (accept w (dropInput s)) := by
  rw [step, fetch, h, hi]

/-- The step that a host's next command stands for accepts it and performs it. -/
theorem step_of_presented (w : Word) (h : s.host.inFlight = none) :
    step { s with host := { s.host with inputs := .command w :: s.host.inputs } } = perform w (accept w s) :=
  step_of_command (s := { s with host := { s.host with inputs := .command w :: s.host.inputs } }) h rfl

/-- Accepting the host's next word, written out: it is taken off the list, the block is BUSY with it, and no response is presented. -/
theorem accept_dropInput_eq {x : HostInput} {rest : List HostInput} (w : Word) (hi : s.host.inputs = x :: rest) :
    accept w (dropInput s) = { s with host := { inputs := rest, inFlight := some w, rsp := none } } := by
  rw [accept, dropInput, hi, List.tail_cons]

section Handshake

/-- An edge with no reset and no completion, whatever command the host presents. -/
def stall (p : Bool × Word) : EdgeInput := { rst := false, cmdValid := p.1, cmdWord := p.2, finish := false }

/-- An edge at which the command in progress completes, whatever command the host presents. -/
def completion (v : Bool) (x : Word) : EdgeInput := { rst := false, cmdValid := v, cmdWord := x, finish := true }

/-- An edge that presents a word. -/
def offer (w : Word) (f : Bool) : EdgeInput := { rst := false, cmdValid := true, cmdWord := w, finish := f }

theorem clockEdge_offer (w : Word) (f : Bool) (h : s.host.inFlight = none) : clockEdge (offer w f) s = .next (accept w s) := by
  simp [clockEdge, offer, h]

/-- A block that is BUSY and has not completed takes no notice of what the host presents (R185). -/
theorem clockEdge_stall (p : Bool × Word) (w : Word) (s : State) : clockEdge (stall p) (accept w s) = .next (accept w s) := rfl

theorem clockEdge_completion (v : Bool) (x w : Word) (s : State) :
    clockEdge (completion v x) (accept w s) = perform w (accept w s) := rfl

/-- A run of edges, of which the first goes on. -/
theorem clockEdges_cons_next {p : EdgeInput} (ps : List EdgeInput) {s t : State} (h : clockEdge p s = .next t) :
    clockEdges (p :: ps) s = clockEdges ps t := by
  rw [clockEdges, h]

theorem clockEdges_singleton (p : EdgeInput) (s : State) : clockEdges [p] s = clockEdge p s := by
  rw [clockEdges]
  cases clockEdge p s <;> rfl

/-- However many edges a command takes, the block waits in the state after acceptance. -/
theorem clockEdges_stalls (stalls : List (Bool × Word)) (rest : List EdgeInput) (w : Word) (s : State) :
    clockEdges (stalls.map stall ++ rest) (accept w s) = clockEdges rest (accept w s) := by
  induction stalls with
  | nil => rfl
  | cons p ps ih => rw [List.map_cons, List.cons_append, clockEdges_cons_next _ (clockEdge_stall p w s), ih]

theorem clockEdges_offer_stalls (w : Word) (f : Bool) (stalls : List (Bool × Word)) (rest : List EdgeInput)
    (h : s.host.inFlight = none) :
    clockEdges (offer w f :: (stalls.map stall ++ rest)) s = clockEdges rest (accept w s) := by
  rw [clockEdges_cons_next _ (clockEdge_offer w f h), clockEdges_stalls]

theorem accept_sameBlock (w : Word) (s : State) : SameBlock s (accept w s) := ⟨rfl, rfl, rfl, rfl⟩

end Handshake

end Sys2Proof.Machine

open Sys2Proof Sys2Proof.Machine in
/-- Settles O9: the word is accepted and performed, which is the meaning of the command it decodes to. -/
theorem stepRunsDecodedCommand : Obligations.StepRunsDecodedCommand := by
  unfold Obligations.StepRunsDecodedCommand
  intro s w rest i hidle hinputs hd
  rw [step_of_command hidle hinputs, perform_of_decode hd, accept_dropInput_eq w hinputs]

open Sys2Proof Sys2Proof.Machine in
/-- Settles O10: the other three things that a step can find to do. -/
theorem stepWithoutNewCommand : Obligations.StepWithoutNewCommand := by
  unfold Obligations.StepWithoutNewCommand
  refine ⟨fun s w h => step_of_inFlight h, fun s h hi => ?_, fun s rest h hi => ?_⟩
  · exact ⟨_, step_of_no_input h hi, ⟨rfl, rfl, rfl, rfl⟩, rfl, congrArg Option.isSome h, hi, rfl⟩
  · exact ⟨_, step_of_reset h hi, applyReset_resetValues _, rfl, congrArg List.tail hi⟩

open Sys2Proof Sys2Proof.Machine in
/-- Settles O49: a block that is BUSY stands still until the completing edge, which performs the word it accepted, as a step does. -/
theorem handshakeRefinesTheCommand : Obligations.HandshakeRefinesTheCommand := by
  unfold Obligations.HandshakeRefinesTheCommand
  intro s w f stalls v x h
  refine ⟨⟨accept w s, ?_, rfl, rfl, accept_sameBlock w s⟩, ?_⟩
  · have hrun := clockEdges_offer_stalls w f stalls [] h
    rwa [List.append_nil] at hrun
  · calc clockEdges (offer w f :: stalls.map stall ++ [completion v x]) s
        = perform w (accept w s) := by
          rw [List.cons_append, clockEdges_offer_stalls w f stalls _ h, clockEdges_singleton, clockEdge_completion]
      _ = step { s with host := { s.host with inputs := .command w :: s.host.inputs } } := (step_of_presented w h).symm
end

section
/-! What does not matter to a command: the engine and ROMQ that GO finds (R32), and the buffer entries outside DCNT and LEN (R52,
R53). -/

namespace Sys2Proof.Machine

open Sys2Proof.Safety

section GoEngine

variable {s s' : State}

/-- One digit of GO's loop treats the sequencer alike from any engine (R32). -/
theorem goDigit_sequencer_congr (h : s'.sequencer = s.sequencer) : (goDigit s').sequencer = (goDigit s).sequencer := by
  rw [goDigit_eq, goDigit_eq, h]

theorem goLoop_sequencer_congr (n : Nat) (h : s'.sequencer = s.sequencer) :
    (goLoop n s').sequencer = (goLoop n s).sequencer := by
  induction n generalizing s s' with
  | zero => exact h
  | succ n ih => exact ih (goDigit_sequencer_congr h)

theorem goDigits_sequencer_congr (h : s'.sequencer = s.sequencer) : (goDigits s').sequencer = (goDigits s).sequencer := by
  rw [goDigits, goDigits, h]
  exact goLoop_sequencer_congr _ rfl

theorem effectOf_go_sequencer_congr (h : s'.sequencer = s.sequencer) :
    (effectOf .go s').sequencer = (effectOf .go s).sequencer := by
  rw [effectOf_go_sequencer, effectOf_go_sequencer, goDigits_sequencer_congr h]

/-- GO's response is its LEN (R133). -/
theorem effectOf_go_host_congr (hq : s'.sequencer = s.sequencer) (hh : s'.host = s.host) :
    (effectOf .go s').host = (effectOf .go s).host := by
  rw [effectOf_go_host, effectOf_go_host, goDigits_sequencer_congr hq, hh]

/-- With a digit to run, GO leaves the engine and ROMQ of the last digit's code, whatever it found there. -/
theorem effectOf_go_engine_romq_congr (hd : s.sequencer.dcnt ≠ 0) (hdcnt : s'.sequencer.dcnt = s.sequencer.dcnt)
    (hlast : dbufRead s'.sequencer (s.sequencer.dcnt.toNat - 1) = dbufRead s.sequencer (s.sequencer.dcnt.toNat - 1)) :
    (effectOf .go s').engine = (effectOf .go s).engine ∧ (effectOf .go s').romq = (effectOf .go s).romq := by
  obtain ⟨hengine, hromq⟩ := effectOf_go_engine_romq_of_digit s hd
  obtain ⟨hengine', hromq'⟩ := effectOf_go_engine_romq_of_digit s' (hdcnt ▸ hd)
  rw [hdcnt, hlast] at hengine' hromq'
  exact ⟨hengine'.trans hengine.symm, hromq'.trans hromq.symm⟩

end GoEngine

section DeadEntries

/-- The state with other buffers. -/
def withBuffers (b : List (Nat × Nibble)) (a : List (Nat × Bool)) (s : State) : State :=
  { s with sequencer := { s.sequencer with dbuf := b, agg := a } }

variable {b : List (Nat × Nibble)} {a : List (Nat × Bool)} {s s' t : State}

/-- A state that differs in dead entries only is the same state with other buffers. -/
theorem eq_withBuffers (h : SameLive s s') : s' = withBuffers s'.sequencer.dbuf s'.sequencer.agg s := by
  have hothers := congrArg (withBuffers s'.sequencer.dbuf s'.sequencer.agg) h.others
  exact hothers

/-- Which entries are live is up to DCNT and LEN. -/
theorem sameLive_congr (h : SameLive s (withBuffers b a s)) (hd : t.sequencer.dcnt = s.sequencer.dcnt)
    (hl : t.sequencer.len = s.sequencer.len) (hb : t.sequencer.dbuf = s.sequencer.dbuf) (ha : t.sequencer.agg = s.sequencer.agg) :
    SameLive t (withBuffers b a t) where
  others := rfl
  dbuf k hk := by
    have hread := h.dbuf k (hd ▸ hk)
    rwa [dbufRead, dbufRead, ← hb] at hread
  agg i hi := by
    have hread := h.agg i (hl ▸ hi)
    rwa [aggRead, aggRead, ← ha] at hread

theorem errorOf_withBuffers (i : Instr) (s : State) : errorOf i (withBuffers b a s) = errorOf i s := by cases i <;> rfl

theorem faultOf_withBuffers (i : Instr) (s : State) : faultOf i (withBuffers b a s) = faultOf i s := by cases i <;> rfl

theorem sameLive_raiseError (e : ErrorKind) (w : Word) (h : SameLive s (withBuffers b a s)) :
    SameLive (raiseError e w s) (raiseError e w (withBuffers b a s)) := sameLive_congr h rfl rfl rfl rfl

/-- The commands that use no buffer pass the buffers by. -/
theorem effectOf_withBuffers {i : Instr} (hb : i ≠ .begin) (hi : needsInvocation i = false) (s : State) :
    effectOf i (withBuffers b a s) = withBuffers b a (effectOf i s) := by
  cases i with
  | begin => exact absurd rfl hb
  | push ch => cases hi
  | go => cases hi
  | rdbit => cases hi
  | run => simp only [effectOf, withBuffers, respond, answer]
  | rdreg n => cases n <;> rfl
  | nop | enc d | seed d | init c z | step => rfl

/-- After BEGIN the sentinel is the one live entry, and BEGIN wrote it. -/
theorem sameLive_begin (s : State) : SameLive (effectOf .begin s) (effectOf .begin (withBuffers b a s)) where
  others := rfl
  dbuf k hk := absurd hk (Nat.not_lt_zero k)
  agg i hi := by
    obtain rfl : i = 0 := Nat.lt_one_iff.mp hi
    rw [effectOf_begin_sequencer, effectOf_begin_sequencer, aggRead_openInvocation, aggRead_openInvocation, if_pos rfl, if_pos rfl]

/-- PUSH makes one entry live, and writes it. -/
theorem sameLive_push (ch : BitVec 8) (hroom : s.sequencer.dcnt.toNat < s.maxd) (h : SameLive s (withBuffers b a s)) :
    SameLive (effectOf (.push ch) s) (effectOf (.push ch) (withBuffers b a s)) where
  others := rfl
  dbuf k hk := by
    have hdcnt := effectOf_push_dcnt_toNat ch hroom
    have hsame : (withBuffers b a s).sequencer.dcnt = s.sequencer.dcnt := rfl
    rw [effectOf_push_sequencer, effectOf_push_sequencer, dbufRead_storeDigit, dbufRead_storeDigit, hsame]
    split_ifs with hlast
    · rfl
    · exact h.dbuf k (by omega)
  agg := h.agg

/-- RDBIT reads below LEN. -/
theorem sameLive_rdbit (hrp : s.sequencer.rp.toNat < s.sequencer.len.toNat) (h : SameLive s (withBuffers b a s)) :
    SameLive (effectOf .rdbit s) (effectOf .rdbit (withBuffers b a s)) := by
  have hread : aggRead (withBuffers b a s).sequencer (withBuffers b a s).sequencer.rp.toNat =
      aggRead s.sequencer s.sequencer.rp.toNat := h.agg _ hrp
  have heffect : effectOf .rdbit (withBuffers b a s) = withBuffers b a (effectOf .rdbit s) := by
    rw [effectOf, hread]
    rfl
  rw [heffect]
  exact sameLive_congr h rfl rfl rfl rfl

/-- LEN as GO leaves it is up to DCNT. -/
theorem closeInvocation_goDigits_len (s : State) :
    (closeInvocation (goDigits s).sequencer).len = 1 + 15 * s.sequencer.dcnt := by
  obtain ⟨-, -, -, -, hdcnt, -⟩ := goDigits_const s
  rw [closeInvocation, hdcnt]

theorem effectOf_go_digitIdx (s : State) : (effectOf .go s).sequencer.digitIdx = 0 := by
  rw [effectOf_go_sequencer, closeInvocation]

/-- GO leaves the same engine and ROMQ whatever the dead entries hold: those it found if there is no digit, else the last digit's. -/
theorem effectOf_go_engine_romq_of_sameLive (h : SameLive s (withBuffers b a s)) :
    (effectOf .go (withBuffers b a s)).engine = (effectOf .go s).engine ∧
      (effectOf .go (withBuffers b a s)).romq = (effectOf .go s).romq := by
  by_cases hd : s.sequencer.dcnt = 0
  · obtain ⟨hengine, hromq⟩ := effectOf_go_engine_romq_of_no_digit s hd
    obtain ⟨hengine', hromq'⟩ := effectOf_go_engine_romq_of_no_digit (withBuffers b a s) hd
    exact ⟨hengine'.trans hengine.symm, hromq'.trans hromq.symm⟩
  · have hpos : s.sequencer.dcnt.toNat ≠ 0 := fun h0 => hd (BitVec.eq_of_toNat_eq h0)
    exact effectOf_go_engine_romq_congr hd rfl (h.dbuf _ (by omega))

theorem effectOf_go_capacity (s : State) : (effectOf .go s).capacity = s.capacity := by
  obtain ⟨-, -, hcapacity, -⟩ := goDigits_const s
  rw [effectOf, respond_capacity, hcapacity]

/-- GO leaves the same but for the buffers whatever the dead entries hold. -/
theorem effectOf_go_withBuffers (h : SameLive s (withBuffers b a s)) :
    withBuffers (effectOf .go s).sequencer.dbuf (effectOf .go s).sequencer.agg (effectOf .go (withBuffers b a s)) =
      effectOf .go s := by
  have hlen := closeInvocation_goDigits_len
  obtain ⟨hengine, hromq⟩ := effectOf_go_engine_romq_of_sameLive h
  refine state_ext hengine hromq (sequencer_ext ?_ ?_ ?_ ?_ ?_ rfl rfl) ?_ ?_ ?_
  · exact (effectOf_go_seq (withBuffers b a s)).trans (effectOf_go_seq s).symm
  · exact (effectOf_go_dcnt (withBuffers b a s)).trans (effectOf_go_dcnt s).symm
  · simp only [withBuffers, effectOf_go_sequencer, hlen]
  · exact (effectOf_go_rp (withBuffers b a s)).trans (effectOf_go_rp s).symm
  · exact (effectOf_go_digitIdx (withBuffers b a s)).trans (effectOf_go_digitIdx s).symm
  · exact (effectOf_go_errors (withBuffers b a s)).trans (effectOf_go_errors s).symm
  · simp only [withBuffers, effectOf_go_host, hlen]
  · exact (effectOf_go_capacity (withBuffers b a s)).trans (effectOf_go_capacity s).symm

/-- GO reads the live digits, and keeps of AGG the sentinel, which is live. -/
theorem sameLive_go (hd : s.sequencer.dcnt.toNat ≤ s.maxd) (hlen : s.sequencer.len = 1) (h : SameLive s (withBuffers b a s)) :
    SameLive (effectOf .go s) (effectOf .go (withBuffers b a s)) where
  others := effectOf_go_withBuffers h
  dbuf k hk := by
    rw [effectOf_go_dcnt] at hk
    rw [dbufRead_go, dbufRead_go]
    exact h.dbuf k hk
  agg i hi := by
    rw [effectOf_go_len_toNat s hd] at hi
    rcases Nat.eq_zero_or_pos i with rfl | hpos
    · rw [aggRead_go_other _ (.inl rfl), aggRead_go_other _ (.inl rfl)]
      exact h.agg 0 (hlen ▸ Nat.one_pos)
    · obtain ⟨k, j, hk, hj, rfl⟩ : ∃ k j, k < s.sequencer.dcnt.toNat ∧ j < 15 ∧ i = 1 + 15 * k + j :=
        ⟨(i - 1) / 15, (i - 1) % 15, by omega, by omega, by omega⟩
      rw [aggRead_go_segment _ hk hj, aggRead_go_segment (withBuffers b a s) hk hj, h.dbuf k hk]

theorem sameLive_effectOf {i : Instr} (he : errorOf i s = none) (hf : faultOf i s = none) (hinv : BlockInv s)
    (h : SameLive s (withBuffers b a s)) : SameLive (effectOf i s) (effectOf i (withBuffers b a s)) := by
  cases hi : needsInvocation i with
  | false =>
    by_cases hb : i = .begin
    · subst hb
      exact sameLive_begin s
    · have hq := effectOf_sequencer_of_not_needsInvocation s hb hi
      rw [effectOf_withBuffers hb hi]
      exact sameLive_congr h (congrArg _ hq) (congrArg _ hq) (congrArg _ hq) (congrArg _ hq)
  | true =>
    cases i with
    | push ch =>
      obtain ⟨-, -, hroom⟩ := push_premises he hf
      exact sameLive_push ch hroom h
    | go =>
      obtain ⟨hs, hd⟩ := go_premises he hf
      obtain ⟨hlen, -⟩ := hinv.open_len (.inl hs)
      exact sameLive_go hd hlen h
    | rdbit =>
      obtain ⟨-, hrp⟩ := errorOf_rdbit_eq_none_iff.mp he
      exact sameLive_rdbit (rp_lt_len hinv hrp) h
    | _ => cases hi

/-- One word from two states that differ in dead entries only. -/
theorem perform_sameLive {w : Word} (hinv : BlockInv s) (h : SameLive s s') (ht : perform w s = .next t) :
    ∃ t', perform w s' = .next t' ∧ SameLive t t' := by
  have heq := eq_withBuffers h
  generalize s'.sequencer.dbuf = b, s'.sequencer.agg = a at heq
  subst heq
  cases hd : decode w with
  | none =>
    cases (perform_of_illegal hd s).symm.trans ht
    exact ⟨_, perform_of_illegal hd _, sameLive_raiseError .ill w h⟩
  | some i =>
    rw [perform_of_decode hd] at ht ⊢
    rcases exec_next_cases ht with ⟨e, he, rfl⟩ | ⟨he, hf, rfl⟩
    · exact ⟨_, exec_of_error ((errorOf_withBuffers i s).trans he), sameLive_raiseError e _ h⟩
    · exact ⟨_, exec_of_effect ((errorOf_withBuffers i s).trans he) ((faultOf_withBuffers i s).trans hf),
        sameLive_effectOf he hf hinv h⟩

theorem sameLive_host (h : SameLive s s') : s'.host = s.host := by
  have hothers := congrArg State.host h.others
  exact hothers

end DeadEntries

end Sys2Proof.Machine

open Sys2Proof Sys2Proof.Machine in
/-- Settles O43, by induction on the words: no command reads a dead entry, and the entries that PUSH, GO and BEGIN make live are ones
they write. -/
theorem deadEntriesAreNeverObserved : Obligations.DeadEntriesAreNeverObserved := by
  unfold Obligations.DeadEntriesAreNeverObserved
  intro ws
  induction ws with
  | nil => exact fun s s' _ h => ⟨[], s, s', rfl, rfl, h⟩
  | cons w ws ih =>
    intro s s' hinv h
    obtain ⟨t, ht⟩ := perform_of_blockInv w hinv
    obtain ⟨t', ht', hlive⟩ := perform_sameLive hinv h ht
    obtain ⟨x, hrsp, -⟩ := perform_answered ht
    have hrsp' : t'.host.rsp = some x := (congrArg HostPort.rsp (sameLive_host hlive)).trans hrsp
    obtain ⟨rs, u, u', hrun, hrun', hend⟩ := ih t t' (blockInv_kept.perform ht hinv) hlive
    exact ⟨x :: rs, u, u', by rw [runWords_cons_next ht hrsp, hrun], by rw [runWords_cons_next ht' hrsp', hrun'], hend⟩

open Sys2Proof Sys2Proof.Machine in
/-- Settles O24: GO's loop reads of the state before it the sequencer only, and seeds the engine anew at each digit. -/
theorem goIgnoresEarlierEngine : Obligations.GoIgnoresEarlierEngine := by
  unfold Obligations.GoIgnoresEarlierEngine
  intro s t e c h
  rcases exec_next_cases h with ⟨x, hx, rfl⟩ | ⟨hx, hf, rfl⟩
  · refine ⟨_, exec_of_error (s := { s with engine := e, romq := c }) hx, rfl, rfl, rfl, fun hs => ?_⟩
    cases (errorOf_go_of_loading hs).symm.trans hx
  · refine ⟨_, exec_of_effect (s := { s with engine := e, romq := c }) hx hf, effectOf_go_sequencer_congr rfl,
      effectOf_go_host_congr rfl rfl, ?_, fun _ hd => ?_⟩
    · rw [effectOf_go_errors, effectOf_go_errors]
    · obtain ⟨hengine, hromq⟩ := effectOf_go_engine_romq_congr (s := s) (s' := { s with engine := e, romq := c }) hd rfl rfl
      rw [hengine]
      exact ⟨rfl, rfl, rfl, rfl, rfl, hromq⟩
end

section
/-! RUN against fifteen STEP commands (R112), and SEEDRUN against GO (R78, R133). -/

namespace Sys2Proof.Machine

open Sys2Proof.Safety

theorem outputs_length (n : Nat) (r : Nibble) : (outputs n r).length = n := by
  induction n generalizing r with
  | zero => rfl
  | succ n ih => rw [outputs, List.length_cons, ih]

/-- The output bits in call order, by their number. -/
theorem outputs_getElem? {n j : Nat} (r : Nibble) (h : j < n) : (outputs n r)[j]? = some (outputBit r j) := by
  induction n generalizing r j with
  | zero => cases h
  | succ n ih =>
    cases j with
    | zero => rfl
    | succ j => exact ih (stepF r).1 (Nat.lt_of_succ_lt_succ h)

/-- The engine after n Steps (R111). -/
def stepsEngine (n : Nat) (e : Engine) : Engine :=
  { e with r := regAfter n e.r, sc := e.sc + BitVec.ofNat 8 n, ob := (outputs n e.r).getLastD e.ob }

theorem stepsEngine_succ (n : Nat) (e : Engine) : stepsEngine n (engineStep e) = stepsEngine (n + 1) e := by
  have hsc : e.sc + 1 + BitVec.ofNat 8 n = e.sc + BitVec.ofNat 8 (n + 1) := by
    rw [BitVec.add_assoc, BitVec.ofNat_add, BitVec.add_comm (BitVec.ofNat 8 n)]
    rfl
  simp only [stepsEngine, engineStep_r, engineStep_sc, engineStep_ob, hsc, outputs, regAfter, List.getLastD_cons]
  rfl

/-- Run15 is 15 Steps, with SEG packed from their outputs. -/
theorem run15_eq_stepsEngine (e : Engine) :
    run15 e = { stepsEngine 15 e with seg := packSeg (outputs 15 e.r), runcnt := 0 } := run15_eq e

/-- The response to a STEP that shifts out a bit (R114). -/
def stepResponse (b : Bool) : Response := { ok := true, data := bitWord b }

theorem perform_step (s : State) : perform 0x4000#16 s = .next (effectOf .step s) :=
  (perform_of_decode (decode_step_word 0) s).trans (exec_step s)

theorem perform_run (s : State) : perform 0x5000#16 s = .next (effectOf .run s) :=
  (perform_of_decode (decode_run_word 0) s).trans (exec_run s)

/-- A run of STEP words: each is answered with its output bit. -/
theorem runWords_steps (n : Nat) (s : State) :
    ∃ u, runWords (List.replicate n 0x4000#16) s = ((outputs n s.engine.r).map stepResponse, .next u) ∧
      u.engine = stepsEngine n s.engine := by
  induction n generalizing s with
  | zero => exact ⟨s, rfl, by simp only [stepsEngine, outputs, regAfter, List.getLastD_nil, BitVec.add_zero]⟩
  | succ n ih =>
    obtain ⟨u, hrun, hu⟩ := ih (effectOf .step s)
    refine ⟨u, ?_, ?_⟩
    · rw [List.replicate_succ, runWords_cons_next (perform_step s) (effectOf_step_rsp s), hrun]
      rfl
    · rw [hu, effectOf_step_engine, stepsEngine_succ]

/-- The word of SEED d. -/
theorem decode_seedrun_word (d : Nibble) : decode (0x200#12 ++ d) = some (.seed d) := decode_seed_word 0 d

/-- `SEEDRUN d` for a digit d: the engine and ROMQ of that digit's code, and nothing of the sequencer. -/
theorem runWords_seedrun (s : State) {d : Nibble} (h : d.toNat < 10) :
    ∃ rs u, runWords [0x200#12 ++ d, 0x5000#16] s = (rs, .next u) ∧ u.engine = seededRun (rom d) ∧ u.romq = rom d ∧
      u.sequencer = s.sequencer := by
  have hseed : perform (0x200#12 ++ d) s = .next (effectOf (.seed d) s) := by
    rw [perform_of_decode (decode_seedrun_word d), exec_of_effect (errorOf_seed_of_digit s h) rfl]
  obtain ⟨rs, hrun⟩ : ∃ rs, runWords [0x200#12 ++ d, 0x5000#16] s = (rs, .next (effectOf .run (effectOf (.seed d) s))) := by
    rw [runWords_cons_next hseed rfl, runWords_cons_next (perform_run _) (effectOf_run_rsp _)]
    exact ⟨_, rfl⟩
  refine ⟨rs, _, hrun, ?_, ?_, ?_⟩
  · rw [effectOf_run_engine]
    exact run15_initEngine (rom d) s.engine
  · rw [effectOf_run_romq]
    rfl
  · rw [effectOf_sequencer_of_engineSide (by rfl), effectOf_sequencer_of_engineSide (by rfl)]

end Sys2Proof.Machine

open Sys2Proof Sys2Proof.Machine in
/-- Settles O18: Run15 and 15 STEP words make the same 15 Steps, and SEG packs the bits that the STEPs are answered with. -/
theorem runIsFifteenStepCommands : Obligations.RunIsFifteenStepCommands := by
  unfold Obligations.RunIsFifteenStepCommands
  intro s
  obtain ⟨u, hrun, hu⟩ := runWords_steps 15 s
  refine ⟨_, _, u, exec_run s, hrun, ?_, fun j hj => ?_, ?_⟩
  · rw [List.length_map, outputs_length]
  · rw [effectOf_run_engine, run15_seg_bit _ hj, List.getElem?_map, outputs_getElem? _ hj, ← bitWord_eq_ofNat]
    rfl
  · rw [effectOf_run_engine, hu, run15_eq_stepsEngine]
    exact ⟨rfl, rfl, rfl, rfl⟩

open Sys2Proof Sys2Proof.Machine in
/-- Settles O48: both leave the engine that the digit's code alone determines (`seededRun`). -/
theorem seedRunMatchesGo : Obligations.SeedRunMatchesGo := by
  unfold Obligations.SeedRunMatchesGo
  rintro s s' d hs hne hd rfl hdigit
  obtain ⟨rs, u, hrun, hengine, hromq, hq⟩ := runWords_seedrun s' hdigit
  obtain ⟨hengine', hromq'⟩ := effectOf_go_engine_romq_of_digit s hne
  refine ⟨_, rs, u, exec_go_of_loading s hs hd, hrun, ?_⟩
  rw [hengine, hengine', hromq, hromq']
  exact ⟨rfl, rfl, rfl, rfl, rfl, rfl, hq⟩
end

section
/-! Whole invocations (R2, R136 to R138): BEGIN, one PUSH per character, GO and RDBITs. -/

namespace Sys2Proof.Machine

open Sys2Proof.Safety

theorem perform_begin (s : State) : perform 0x6000#16 s = .next (effectOf .begin s) :=
  (perform_of_decode (decode_begin_word 0) s).trans (exec_of_effect rfl rfl)

theorem decode_push_char (ch : BitVec 8) : decode (0x70#8 ++ ch) = some (.push ch) := decode_push_word 0 ch

section Digits

/-- The character of a digit (R132). -/
def digitChar (d : Nibble) : BitVec 8 := 0x3#4 ++ d

theorem digitOfChar_digitChar : ∀ d : Nibble, digitOfChar (digitChar d) = d := by decide

theorem isDigitChar_digitChar : ∀ d : Nibble, d.toNat < 10 → isDigitChar (digitChar d) = true := by decide

theorem digit_push_word : ∀ d : Nibble, (0x703#12 ++ d : Word) = 0x70#8 ++ digitChar d := by decide

/-- PUSH is answered with the DCNT it leaves (R131). -/
theorem effectOf_push_rsp (ch : BitVec 8) (s : State) :
    (effectOf (.push ch) s).host.rsp = some { ok := true, data := (effectOf (.push ch) s).sequencer.dcnt } := rfl

/-- From s to t, the digits ds are stored behind those there were, and AGG is as it was. -/
structure DigitsStored (ds : List Nibble) (s t : State) : Prop where
  seq : t.sequencer.seq = .loading
  dcnt : t.sequencer.dcnt.toNat = s.sequencer.dcnt.toNat + ds.length
  agg : t.sequencer.agg = s.sequencer.agg
  maxd : t.maxd = s.maxd
  old : ∀ k < s.sequencer.dcnt.toNat, dbufRead t.sequencer k = dbufRead s.sequencer k
  new : ∀ (k : Nat) (h : k < ds.length), dbufRead t.sequencer (s.sequencer.dcnt.toNat + k) = ds[k]

variable {s t : State} {d : Nibble} {ds : List Nibble}

theorem perform_push_digit (hs : s.sequencer.seq = .loading) (hd : d.toNat < 10) (hroom : s.sequencer.dcnt.toNat < s.maxd) :
    perform (0x703#12 ++ d) s = .next (effectOf (.push (digitChar d)) s) := by
  rw [digit_push_word, perform_of_decode (decode_push_char _), exec_push_of_room hs (isDigitChar_digitChar d hd) hroom]

/-- One PUSH more in front. -/
theorem digitsStored_cons (hroom : s.sequencer.dcnt.toNat < s.maxd)
    (h : DigitsStored ds (effectOf (.push (digitChar d)) s) t) : DigitsStored (d :: ds) s t := by
  have hdcnt := effectOf_push_dcnt_toNat (digitChar d) hroom
  have hread (k : Nat) : dbufRead (effectOf (.push (digitChar d)) s).sequencer k =
      if k = s.sequencer.dcnt.toNat then d else dbufRead s.sequencer k := by
    rw [effectOf_push_sequencer, dbufRead_storeDigit, digitOfChar_digitChar]
  refine ⟨h.seq, ?_, h.agg, h.maxd, fun k hk => ?_, fun k hk => ?_⟩
  · rw [h.dcnt, hdcnt, List.length_cons]
    omega
  · rw [h.old k (by omega), hread, if_neg hk.ne]
  · cases k with
    | zero => rw [Nat.add_zero, h.old _ (by omega), hread, if_pos rfl, List.getElem_cons_zero]
    | succ k =>
      have hnew := h.new k (Nat.lt_of_succ_lt_succ hk)
      rw [hdcnt] at hnew
      rw [List.getElem_cons_succ, ← hnew, Nat.add_right_comm, Nat.add_assoc]

/-- PUSHes of digits that fit all succeed and store them in order. -/
theorem runWords_push_digits (hs : s.sequencer.seq = .loading) (hds : ∀ d ∈ ds, d.toNat < 10)
    (hroom : s.sequencer.dcnt.toNat + ds.length ≤ s.maxd) :
    ∃ rs t, runWords (ds.map fun d => 0x703#12 ++ d) s = (rs, .next t) ∧ rs.length = ds.length ∧ (∀ a ∈ rs, a.ok = true) ∧
      DigitsStored ds s t := by
  induction ds generalizing s with
  | nil => exact ⟨[], s, rfl, rfl, nofun, hs, rfl, rfl, rfl, fun _ _ => rfl, nofun⟩
  | cons d ds ih =>
    rw [List.length_cons] at hroom
    rw [List.forall_mem_cons] at hds
    have hdcnt := effectOf_push_dcnt_toNat (s := s) (digitChar d) (by omega)
    obtain ⟨rs, t, hrun, hlen, hok, hstored⟩ := ih (s := effectOf (.push (digitChar d)) s) hs hds.2
      (by rw [hdcnt, effectOf_maxd]; omega)
    refine ⟨{ ok := true, data := (effectOf (.push (digitChar d)) s).sequencer.dcnt } :: rs, t, ?_, congrArg (· + 1) hlen,
      List.forall_mem_cons.mpr ⟨rfl, hok⟩, digitsStored_cons (by omega) hstored⟩
    rw [List.map_cons, runWords_cons_next (perform_push_digit hs hds.1 (by omega)) (effectOf_push_rsp _ s), hrun]

/-- A range cut into segments of 15, one for each element of a list. -/
theorem map_range'_segments {α β : Type} (f : Nat → β) (g : α → Nat → β) (xs : List α) (a : Nat)
    (h : ∀ (k : Nat) (hk : k < xs.length) (j : Nat), j < 15 → f (a + 15 * k + j) = g xs[k] j) :
    (List.range' a (15 * xs.length)).map f = xs.flatMap fun x => (List.range 15).map (g x) := by
  induction xs generalizing a with
  | nil => rfl
  | cons x xs ih =>
    have hfirst : (List.range' a 15).map f = (List.range 15).map (g x) := by
      rw [List.range'_eq_map_range, List.map_map]
      exact List.map_congr_left fun j hj => h 0 (Nat.succ_pos _) j (List.mem_range.mp hj)
    have hrest : (List.range' (a + 15) (15 * xs.length)).map f = xs.flatMap fun x => (List.range 15).map (g x) := by
      refine ih (a + 15) fun k hk j hj => ?_
      rw [← List.getElem_cons_succ x xs k (Nat.succ_lt_succ hk), ← h (k + 1) (Nat.succ_lt_succ hk) j hj]
      congr 1
      omega
    rw [List.length_cons, Nat.mul_succ, Nat.add_comm, ← List.range'_append_1, List.map_append, hfirst, hrest, List.flatMap_cons]

/-- The bits of a finished invocation, read from AGG: the sentinel, then the OutputSequence of each digit in order (R54). -/
theorem map_bitResponse_go (hdigits : ∀ d ∈ ds, d.toNat < 10) (hsentinel : aggRead t.sequencer 0 = false)
    (hd : t.sequencer.dcnt.toNat = ds.length) (hread : ∀ (k : Nat) (h : k < ds.length), dbufRead t.sequencer k = ds[k]) :
    (List.range' 0 (1 + 15 * ds.length)).map (bitResponse (effectOf .go t).sequencer) =
      (false :: ds.flatMap fun d => (List.range 15).map (outputBit d)).map fun b =>
        { ok := true, data := BitVec.ofNat 16 b.toNat } := by
  have hbits : (List.range' 1 (15 * ds.length)).map (aggRead (effectOf .go t).sequencer) =
      ds.flatMap fun d => (List.range 15).map (outputBit d) := by
    refine map_range'_segments _ outputBit ds 1 fun k hk j hj => ?_
    rw [aggRead_go_segment t (hd ▸ hk) hj, hread k hk, rom_digit _ (hdigits _ (List.getElem_mem hk))]
  have hfirst : aggRead (effectOf .go t).sequencer 0 = false := (aggRead_go_other t (.inl rfl)).trans hsentinel
  have hresponse : bitResponse (effectOf .go t).sequencer =
      (fun b => { ok := true, data := BitVec.ofNat 16 b.toNat }) ∘ aggRead (effectOf .go t).sequencer :=
    funext fun i => congrArg (Response.mk true) (bitWord_eq_ofNat _)
  rw [hresponse, ← List.map_map, Nat.add_comm, List.range'_succ, List.map_cons, hfirst, Nat.zero_add, hbits]

end Digits

section Invalid

variable {s : State}

/-- In FAILED the sequencer's commands are out of sequence (R136). -/
theorem perform_out_of_sequence {w : Word} {i : Instr} (hd : decode w = some i) (hi : needsInvocation i = true)
    (hs : s.sequencer.seq = .failed) : perform w s = .next (raiseError .seqerr w s) := by
  rw [perform_of_decode hd, exec_of_error (errorOf_of_failed hs hi), encode_of_decode hd]

theorem runWords_out_of_sequence {ws : List Word} (hws : ∀ w ∈ ws, ∃ i, decode w = some i ∧ needsInvocation i = true)
    (hs : s.sequencer.seq = .failed) :
    ∃ rs t, runWords ws s = (rs, .next t) ∧ rs.length = ws.length ∧ (∀ a ∈ rs, a.ok = false) ∧ t.sequencer.seq = .failed ∧
      t.engine = s.engine ∧ t.romq = s.romq := by
  induction ws generalizing s with
  | nil => exact ⟨[], s, rfl, rfl, nofun, hs, rfl, rfl⟩
  | cons w ws ih =>
    rw [List.forall_mem_cons] at hws
    obtain ⟨⟨i, hd, hi⟩, hws⟩ := hws
    obtain ⟨rs, t, hrun, hlen, hok, ht⟩ := ih (s := raiseError .seqerr w s) hws hs
    refine ⟨{ ok := false, data := 0 } :: rs, t, ?_, congrArg (· + 1) hlen, List.forall_mem_cons.mpr ⟨rfl, hok⟩, ht⟩
    rw [runWords_cons_next (perform_out_of_sequence hd hi hs) rfl, hrun]

theorem push_word_needsInvocation (cs : List (BitVec 8)) :
    ∀ w ∈ cs.map (fun c => 0x70#8 ++ c), ∃ i, decode w = some i ∧ needsInvocation i = true := by
  rw [List.forall_mem_map]
  exact fun c _ => ⟨_, decode_push_char c, rfl⟩

theorem go_rdbits_needsInvocation (n : Nat) :
    ∀ w ∈ 0x8000#16 :: List.replicate n 0x9000#16, ∃ i, decode w = some i ∧ needsInvocation i = true := by
  rw [List.forall_mem_cons]
  refine ⟨⟨_, decode_go, rfl⟩, fun w hw => ?_⟩
  obtain rfl := List.eq_of_mem_replicate hw
  exact ⟨_, decode_rdbit, rfl⟩

/-- Every error that PUSH can raise in LOADING is fatal (R165, R166). -/
theorem fatal_of_push_of_loading {ch : BitVec 8} {e : ErrorKind} (hs : s.sequencer.seq = .loading)
    (he : errorOf (.push ch) s = some e) : errorFatal e = true := by
  rw [errorOf_push_of_loading ch hs] at he
  split_ifs at he <;> cases he <;> rfl

/-- PUSHes with an invalid character among them end in FAILED: at that character, or before it when DBUF is full. -/
theorem runWords_push_invalid {cs : List (BitVec 8)} (hcs : ∃ c ∈ cs, c.toNat < 0x30 ∨ 0x39 < c.toNat)
    (hs : s.sequencer.seq = .loading) (hd : s.sequencer.dcnt.toNat ≤ s.maxd) :
    ∃ rs t, runWords (cs.map fun c => 0x70#8 ++ c) s = (rs, .next t) ∧ rs.length = cs.length ∧ t.sequencer.seq = .failed ∧
      t.engine = s.engine ∧ t.romq = s.romq := by
  induction cs generalizing s with
  | nil => simp at hcs
  | cons c cs ih =>
    cases he : errorOf (.push c) s with
    | some e =>
      have hperform : perform (0x70#8 ++ c) s = .next (raiseError e (encode (.push c)) s) := by
        rw [perform_of_decode (decode_push_char c), exec_of_error he]
      have hfailed : (raiseError e (encode (.push c)) s).sequencer.seq = .failed := if_pos (fatal_of_push_of_loading hs he)
      obtain ⟨rs, t, hrun, hlen, -, ht⟩ := runWords_out_of_sequence (push_word_needsInvocation cs) hfailed
      rw [List.length_map] at hlen
      obtain ⟨a, hrsp, -⟩ := perform_answered hperform
      refine ⟨a :: rs, t, ?_, congrArg (· + 1) hlen, ht⟩
      rw [List.map_cons, runWords_cons_next hperform hrsp, hrun]
    | none =>
      obtain ⟨-, hch, hne⟩ := errorOf_push_eq_none_iff.mp he
      obtain ⟨hlo, hhi⟩ := isDigitChar_iff.mp hch
      have hdcnt := effectOf_push_dcnt_toNat c (lt_of_le_of_ne hd hne)
      have hrest : ∃ c ∈ cs, c.toNat < 0x30 ∨ 0x39 < c.toNat := by
        rw [List.exists_mem_cons_iff] at hcs
        exact hcs.resolve_left (by omega)
      have hperform : perform (0x70#8 ++ c) s = .next (effectOf (.push c) s) := by
        rw [perform_of_decode (decode_push_char c), exec_push_of_room hs hch (by omega)]
      obtain ⟨rs, t, hrun, hlen, ht⟩ := ih (s := effectOf (.push c) s) hrest hs (by rw [hdcnt, effectOf_maxd]; omega)
      obtain ⟨a, hrsp, -⟩ := perform_answered hperform
      refine ⟨a :: rs, t, ?_, congrArg (· + 1) hlen, ht⟩
      rw [List.map_cons, runWords_cons_next hperform hrsp, hrun]

end Invalid

end Sys2Proof.Machine

open Sys2Proof Sys2Proof.Machine in
/-- Settles O46: the PUSHes store the digits in order, GO lays out their OutputSequences behind BEGIN's sentinel, and the RDBITs read
AGG from its first entry to its last. -/
theorem encodingYieldsTheKeystream : Obligations.EncodingYieldsTheKeystream := by
  unfold Obligations.EncodingYieldsTheKeystream
  intro s ds hds hfit
  have hzero : (effectOf .begin s).sequencer.dcnt.toNat = 0 := rfl
  obtain ⟨rs, t, hpushes, hlen, hok, hstored⟩ := runWords_push_digits (s := effectOf .begin s) rfl hds
    (by rw [hzero, effectOf_maxd]; omega)
  obtain ⟨hseq, hdcnt, hagg, hmaxd, -, hnew⟩ := hstored
  rw [hzero, Nat.zero_add] at hdcnt
  have hsentinel : aggRead t.sequencer 0 = false := by
    rw [aggRead, hagg]
    exact (aggRead_openInvocation s.sequencer 0).trans (if_pos rfl)
  obtain ⟨u, hgo, -⟩ := runWords_go_rdbits hseq (by rw [hdcnt, hmaxd, effectOf_maxd]; exact hfit)
  have hopen : runWords (0x6000#16 :: ds.map fun d => 0x703#12 ++ d) s = ({ ok := true, data := 0 } :: rs, .next t) := by
    rw [runWords_cons_next (perform_begin s) rfl, hpushes]
  have hbits := map_bitResponse_go hds hsentinel hdcnt fun k hk => by simpa only [hzero, Nat.zero_add] using hnew k hk
  rw [hdcnt, hbits] at hgo
  refine ⟨_, u, by rw [runWords_append _ hopen, hgo], ?_, ?_⟩
  · rw [List.forall_mem_append, List.forall_mem_cons, List.forall_mem_cons, List.forall_mem_map]
    exact ⟨⟨rfl, hok⟩, rfl, fun _ _ => rfl⟩
  · have hfront : 2 + ds.length = (({ ok := true, data := 0 } : Response) :: rs).length + 1 := by
      rw [List.length_cons, hlen]
      omega
    rw [hfront, List.drop_length_add_append, List.drop_succ_cons, List.drop_zero]

open Sys2Proof Sys2Proof.Machine in
/-- Settles O47: the PUSHes end in FAILED, where GO and the RDBITs are out of sequence; no error touches the engine or ROMQ. -/
theorem invalidInputYieldsNothing : Obligations.InvalidInputYieldsNothing := by
  unfold Obligations.InvalidInputYieldsNothing
  intro s cs n hcs
  obtain ⟨rs, t, hpushes, hlen, hfailed, hengine, hromq⟩ :=
    runWords_push_invalid (s := effectOf .begin s) hcs rfl (Nat.zero_le _)
  obtain ⟨rs', u, hgo, hlen', hrejected, hu, hengine', hromq'⟩ :=
    runWords_out_of_sequence (go_rdbits_needsInvocation n) hfailed
  have hopen : runWords (0x6000#16 :: cs.map fun c => 0x70#8 ++ c) s = ({ ok := true, data := 0 } :: rs, .next t) := by
    rw [runWords_cons_next (perform_begin s) rfl, hpushes]
  refine ⟨_, u, by rw [runWords_append _ hopen, hgo], ?_, ?_, hu, hengine'.trans hengine, hromq'.trans hromq⟩
  · rw [List.length_append, List.length_cons, hlen, hlen', List.length_cons, List.length_replicate]
    omega
  · rwa [Nat.add_comm, ← hlen, List.cons_append, List.drop_succ_cons, List.drop_left]
end

section
/-! The assembler's text (R77; log entry 14): how a line of plain words is read, and a line for every command. -/

namespace Sys2Proof

/-- The characters that a word is made of: none that ends a token or begins another (log entry 14). -/
def isWordChar (c : Char) : Bool := !([';', ' ', '\t', ',', '[', ']', '\x22', '\x27'].contains c)

/-- A character of a word is added to the word being read. -/
theorem asmTokens_wordChar {c : Char} (h : isWordChar c = true) (cs wd : List Char) :
    asmTokens (c :: cs) none wd = asmTokens cs none (wd ++ [c]) := by
  simp only [isWordChar, List.contains_eq_mem, List.mem_cons, List.not_mem_nil, or_false, Bool.not_eq_true',
    decide_eq_false_iff_not, not_or] at h
  obtain ⟨hcomment, hspace, htab, hcomma, hopen, hclose, hdouble, hsingle⟩ := h
  rw [asmTokens, if_neg hcomment, if_neg (not_or.mpr ⟨hspace, htab⟩), if_neg hcomma, if_neg hopen, if_neg hclose, if_neg hdouble]
  rintro q cs' rfl
  exact absurd rfl hsingle

theorem asmTokens_append_word {x : List Char} (h : x.all isWordChar = true) (cs wd : List Char) :
    asmTokens (x ++ cs) none wd = asmTokens cs none (wd ++ x) := by
  induction x generalizing wd with
  | nil => rw [List.nil_append, List.append_nil]
  | cons c x ih =>
    rw [List.all_cons, Bool.and_eq_true] at h
    rw [List.cons_append, asmTokens_wordChar h.1, ih h.2, List.append_assoc]
    rfl

/-- A word of one character or more. -/
def isWord (x : List Char) : Bool := x.all isWordChar && !x.isEmpty

theorem all_isWordChar_of_isWord {x : List Char} (h : isWord x = true) : x.all isWordChar = true := by
  rw [isWord, Bool.and_eq_true] at h
  exact h.1

theorem endWord_of_isWord {x : List Char} (h : isWord x = true) : endWord x = [.word x] := by
  cases x with
  | nil => cases h
  | cons c x => rfl

variable {m x z : List Char}

theorem asmTokens_word (h : isWord x = true) : asmTokens x none [] = some [.word x] := by
  have hread := asmTokens_append_word (all_isWordChar_of_isWord h) [] []
  rw [List.append_nil, List.nil_append] at hread
  rw [hread, asmTokens, endWord_of_isWord h]

/-- A space ends a word. -/
theorem asmTokens_word_space (h : isWord m = true) (cs : List Char) :
    asmTokens (m ++ ' ' :: cs) none [] = (asmTokens cs none []).map (AsmToken.word m :: ·) := by
  rw [asmTokens_append_word (all_isWordChar_of_isWord h), List.nil_append, asmTokens, endWord_of_isWord h]
  · rfl
  · nofun

/-- A comma ends a word, and is a token of its own. -/
theorem asmTokens_word_comma (h : isWord x = true) (cs : List Char) :
    asmTokens (x ++ ',' :: cs) none [] = (asmTokens cs none []).map ([.word x, .comma] ++ ·) := by
  rw [asmTokens_append_word (all_isWordChar_of_isWord h), List.nil_append, asmTokens, endWord_of_isWord h]
  · rfl
  · nofun

theorem assembleText_word (len : Nat) (h : isWord m = true) :
    assembleText len m = (asmLine len [.word m]).bind AsmLine.assemble := by
  rw [assembleText, asmTokens_word h]

theorem assembleText_operand (len : Nat) (hm : isWord m = true) (hx : isWord x = true) :
    assembleText len (m ++ ' ' :: x) = (asmLine len [.word m, .word x]).bind AsmLine.assemble := by
  rw [assembleText, asmTokens_word_space hm, asmTokens_word hx]
  rfl

theorem assembleText_operands (len : Nat) (hm : isWord m = true) (hx : isWord x = true) (hz : isWord z = true) :
    assembleText len (m ++ ' ' :: (x ++ ',' :: z)) =
      (asmLine len [.word m, .word x, .comma, .word z]).bind AsmLine.assemble := by
  rw [assembleText, asmTokens_word_space hm, asmTokens_word_comma hx, asmTokens_word hz]
  rfl

/-- The decimal text of a number below 16. -/
def decimalText (d : Nibble) : List Char := Nat.toDigits 10 d.toNat

/-- The text `0xNN` of a byte. -/
def byteText (b : BitVec 8) : List Char :=
  ['0', 'x', Nat.digitChar (b.toNat / 16), Nat.digitChar (b.toNat % 16)]

theorem isWord_decimalText : ∀ d : Nibble, isWord (decimalText d) = true := by decide
theorem asmDecimal_decimalText : ∀ d : Nibble, asmDecimal (decimalText d) = some d.toNat := by decide
theorem asmSeed_decimalText : ∀ d : Nibble, asmSeed (decimalText d) = some (.num d.toNat) := by decide

/-- The sixteen digits of a byte's text, as characters of a word and as numbers. -/
theorem isWordChar_digitChar : ∀ n < 16, isWordChar (Nat.digitChar n) = true := by decide
theorem asmDigit_digitChar : ∀ n < 16, asmDigit 16 (Nat.digitChar n) = some n := by decide

theorem isWord_byteText (b : BitVec 8) : isWord (byteText b) = true := by
  have hb := b.isLt
  have hhi := isWordChar_digitChar (b.toNat / 16) (by omega)
  have hlo := isWordChar_digitChar (b.toNat % 16) (by omega)
  have hmarks : isWordChar '0' = true ∧ isWordChar 'x' = true := by decide
  simp [isWord, byteText, hmarks, hhi, hlo]

theorem asmByte_byteText (b : BitVec 8) : asmByte (byteText b) = some (.byte b.toNat) := by
  have hb := b.isLt
  have hhi := asmDigit_digitChar (b.toNat / 16) (by omega)
  have hlo := asmDigit_digitChar (b.toNat % 16) (by omega)
  simp only [byteText, asmByte, hhi, hlo, Nat.div_add_mod]

/-- A line for each command, its operands as numbers. -/
def lineOf : Instr → List Char
  | .nop => ['N', 'O', 'P']
  | .enc d => ['E', 'N', 'C'] ++ ' ' :: decimalText d
  | .seed d => ['S', 'E', 'E', 'D'] ++ ' ' :: decimalText d
  | .init c z => ['I', 'N', 'I', 'T'] ++ ' ' :: (decimalText c ++ ',' :: decimalText ((BitVec.ofBool z).setWidth 4))
  | .step => ['S', 'T', 'E', 'P']
  | .run => ['R', 'U', 'N']
  | .begin => ['B', 'E', 'G', 'I', 'N']
  | .push ch => ['P', 'U', 'S', 'H'] ++ ' ' :: byteText ch
  | .go => ['G', 'O']
  | .rdbit => ['R', 'D', 'B', 'I', 'T']
  | .rdreg n => ['R', 'D', 'R', 'E', 'G'] ++ ' ' :: decimalText (n.number.setWidth 4)

theorem asmLine_enc (len : Nat) (x : List Char) :
    asmLine len [.word ['E', 'N', 'C'], .word x] = (asmDecimal x).map .enc := rfl
theorem asmLine_seed (len : Nat) (x : List Char) :
    asmLine len [.word ['S', 'E', 'E', 'D'], .word x] = (asmDecimal x).map .seed := rfl
theorem asmLine_push (len : Nat) (x : List Char) :
    asmLine len [.word ['P', 'U', 'S', 'H'], .word x] = (asmByte x).map .push := rfl
theorem asmLine_rdreg (len : Nat) (x : List Char) :
    asmLine len [.word ['R', 'D', 'R', 'E', 'G'], .word x] = (asmReg x).map .rdreg := rfl
theorem asmLine_init (len : Nat) (x z : List Char) :
    asmLine len [.word ['I', 'N', 'I', 'T'], .word x, .comma, .word z] =
      (asmSeed x).bind fun s => (asmDecimal z).map (.init s) := rfl

/-- A line whose operands are the numbers of a command's fields assembles to the command's word. -/
theorem assemble_enc : ∀ d : Nibble, (AsmLine.enc d.toNat).assemble = some [encode (.enc d)] := by decide
theorem assemble_seed : ∀ d : Nibble, (AsmLine.seed d.toNat).assemble = some [encode (.seed d)] := by decide
theorem assemble_init : ∀ (c : Nibble) (z : Bool),
    (AsmLine.init (.num c.toNat) z.toNat).assemble = some [encode (.init c z)] := by decide
theorem assemble_rdreg (n : Reg) : (AsmLine.rdreg (.num n.number.toNat)).assemble = some [encode (.rdreg n)] := by
  cases n <;> decide
theorem assemble_push (ch : BitVec 8) : (AsmLine.push (.byte ch.toNat)).assemble = some [encode (.push ch)] := by
  have hwf : (AsmLine.push (.byte ch.toNat)).wellFormed = true := decide_eq_true (Nat.le_of_lt_succ ch.isLt)
  rw [assemble_of_wellFormed hwf, AsmLine.expand, AsmChar.value, BitVec.ofNat_toNat, BitVec.setWidth_eq]
  rfl

theorem asmReg_number (n : Reg) : asmReg (decimalText (n.number.setWidth 4)) = some (.num n.number.toNat) := by
  cases n <;> decide

theorem asmDecimal_bit (z : Bool) : asmDecimal (decimalText ((BitVec.ofBool z).setWidth 4)) = some z.toNat := by
  cases z <;> decide

theorem assembleText_lineOf (i : Instr) : assembleText 0 (lineOf i) = some [encode i] := by
  cases i with
  | nop | step | run | begin | go | rdbit => exact assembleText_word 0 (by decide)
  | enc d =>
    rw [lineOf, assembleText_operand 0 (by decide) (isWord_decimalText d), asmLine_enc, asmDecimal_decimalText]
    exact assemble_enc d
  | seed d =>
    rw [lineOf, assembleText_operand 0 (by decide) (isWord_decimalText d), asmLine_seed, asmDecimal_decimalText]
    exact assemble_seed d
  | init c z =>
    rw [lineOf, assembleText_operands 0 (by decide) (isWord_decimalText c) (isWord_decimalText _), asmLine_init,
      asmSeed_decimalText, Option.bind_some, asmDecimal_bit]
    exact assemble_init c z
  | push ch =>
    rw [lineOf, assembleText_operand 0 (by decide) (isWord_byteText ch), asmLine_push, asmByte_byteText]
    exact assemble_push ch
  | rdreg n =>
    rw [lineOf, assembleText_operand 0 (by decide) (isWord_decimalText _), asmLine_rdreg, asmReg_number]
    exact assemble_rdreg n

end Sys2Proof

open Sys2Proof in
/-- Settles O7: the lines, read by the assembler. -/
theorem assemblerTextExamples : Obligations.AssemblerTextExamples := by
  unfold Obligations.AssemblerTextExamples
  decide +kernel

open Sys2Proof in
/-- Settles O8: the mnemonic and the operands as numbers are such a line (`lineOf`). -/
theorem everyCommandHasALine : Obligations.EveryCommandHasALine := by
  unfold Obligations.EveryCommandHasALine
  exact fun i => ⟨lineOf i, assembleText_lineOf i⟩
end
